-- ==== Sys2Proof/Machine/Params.lean ====
section
/-! DEFINITION. The parameters of spec/00_scope.md R4 that the source fixes or the spec decides, each a
named constant, so that an audit changes one definition (R5). The opcode map is in
Sys2Proof/Decode.lean; the open values are in Sys2Proof/Config.lean. -/

namespace Sys2Proof.Params

/-- The basic operand width, 12 bits (R4): bits below the opcode of a basic word. -/
@[simp, reducible] def basicWidth : Nat := 12

/-- The extended operand width, 8 bits (R4): bits below the sub-code of an extended word. -/
@[simp, reducible] def extWidth : Nat := 8

/-- The largest operand of an unsigned basic field. -/
@[simp] def basicMax : Nat := 2 ^ basicWidth - 1

/-- The largest operand of an extended field. -/
@[simp] def extMax : Nat := 2 ^ extWidth - 1

/-- The least value of a basic field in two's complement. -/
@[simp] def immMin : Int := -2 ^ (basicWidth - 1)

/-- The largest value of a basic field in two's complement. -/
@[simp] def immMax : Int := 2 ^ (basicWidth - 1) - 1

/-- `MEMORY_SIZE`: 4096 words (R4). -/
@[simp] def memorySize : Int := 4096

/-- `STACK_BASE` (R4). -/
@[simp] def stackBase : Int := 4095

/-- The value of SP after reset (R4; spec/10_state.md R37). -/
@[simp] def resetSp : Int := 4095

/-- The reset PC (spec/70_reset_and_hazards.md R261). -/
@[simp] def resetPc : Int := 0

/-- What every memory word holds after reset, and so what an unlisted address reads as
(spec/10_state.md R37, decision D12; log entry 16). -/
@[simp] def resetWord : Int := 0

/-- The word whose fetch halts (spec/30_encoding.md R81). -/
@[simp] def haltSentinel : Int := 0

/-- `LOAD_BASE` (R4). -/
@[simp] def loadBase : Int := 0

/-- `MAX_CYCLES_DEFAULT` (R4). -/
def maxCyclesDefault : Int := 10000

/-- `JPOS_ON_ZERO` (R4, decision D6; log entry 10). -/
@[simp] def jposOnZero : Bool := true

/-- `CALL_RETURN_OFFSET` (R4, decision D5; log entry 11). -/
@[simp] def callReturnOffset : Int := 1

/-- The two settings of `WIDE_WORD_DECODE` (spec/30_encoding.md R80, spec/92_eei_decisions.md D10). -/
inductive WideWordDecode where
  /-- A word outside 0..0xFFFF decodes to ILLEGAL. -/
  | fault
  /-- The low 16 bits are decoded. -/
  | low16
  deriving DecidableEq, Repr

/-- `WIDE_WORD_DECODE`, the spec's setting (R4, decision D10; log entry 12). -/
@[simp] def wideWordDecode : WideWordDecode := .fault

end Sys2Proof.Params
end

