-- ==== Sys2Proof/Word.lean ====
section
/-! DEFINITION. The one word type the spec treats as bits: the 16-bit instruction word of
spec/30_encoding.md R70. Register and memory values are not bits: they are unbounded integers
(spec/10_state.md R20 and R30, decision D2), and the model writes them as `Int`. -/

namespace Sys2Proof

/-- A 16-bit instruction word; bit 15 is the most significant (R70). -/
abbrev InstrWord := BitVec 16

end Sys2Proof
end

