-- ==== Sys2Proof/Syntax.lean ====
section
/-! DEFINITION. The 23 opcodes, the instructions with their operands, and the decoded forms
(spec/30_encoding.md R74 to R80). Operands are the numbers the decoder assembles (R76): a natural
number for an unsigned field, an integer for LOCO. -/

namespace Sys2Proof

/-- The 15 basic opcodes, in the order of R74. -/
inductive BasicOp where
  | lodd | stod | addd | subd | jpos | jzer | jump | loco
  | lodl | stol | addl | subl | jneg | jnze | call
  deriving DecidableEq, Repr

/-- The 8 extended opcodes, in the order of R75. -/
inductive ExtOp where
  | pshi | popi | push | pop | retn | swap | insp | desp
  deriving DecidableEq, Repr

/-- One of the 23 named operations (the glossary's "opcode"). -/
inductive Mnemonic where
  | basic (b : BasicOp)
  | ext (e : ExtOp)
  deriving DecidableEq, Repr

def basicOps : List BasicOp :=
  [.lodd, .stod, .addd, .subd, .jpos, .jzer, .jump, .loco,
   .lodl, .stol, .addl, .subl, .jneg, .jnze, .call]

def extOps : List ExtOp := [.pshi, .popi, .push, .pop, .retn, .swap, .insp, .desp]

/-- `MNEMONICS` (R85). -/
def mnemonics : List Mnemonic := basicOps.map .basic ++ extOps.map .ext

/-- The assembly name of a mnemonic (R74, R75). -/
def Mnemonic.name : Mnemonic → String
  | .basic .lodd => "LODD"
  | .basic .stod => "STOD"
  | .basic .addd => "ADDD"
  | .basic .subd => "SUBD"
  | .basic .jpos => "JPOS"
  | .basic .jzer => "JZER"
  | .basic .jump => "JUMP"
  | .basic .loco => "LOCO"
  | .basic .lodl => "LODL"
  | .basic .stol => "STOL"
  | .basic .addl => "ADDL"
  | .basic .subl => "SUBL"
  | .basic .jneg => "JNEG"
  | .basic .jnze => "JNZE"
  | .basic .call => "CALL"
  | .ext .pshi => "PSHI"
  | .ext .popi => "POPI"
  | .ext .push => "PUSH"
  | .ext .pop => "POP"
  | .ext .retn => "RETN"
  | .ext .swap => "SWAP"
  | .ext .insp => "INSP"
  | .ext .desp => "DESP"

/-- The instructions: one constructor per row of spec/opcode_table.json. -/
inductive Instr where
  /-- AC ← M[addr] (R141) -/
  | lodd (addr : Nat)
  /-- M[addr] ← AC (R142) -/
  | stod (addr : Nat)
  /-- AC ← AC + M[addr] (R143) -/
  | addd (addr : Nat)
  /-- AC ← AC − M[addr] (R144) -/
  | subd (addr : Nat)
  /-- to `addr` if AC ≥ 0 (R182) -/
  | jpos (addr : Nat)
  /-- to `addr` if AC = 0 (R183) -/
  | jzer (addr : Nat)
  /-- to `addr` (R181) -/
  | jump (addr : Nat)
  /-- AC ← k (R145) -/
  | loco (k : Int)
  /-- AC ← M[SP + off] (R161) -/
  | lodl (off : Nat)
  /-- M[SP + off] ← AC (R162) -/
  | stol (off : Nat)
  /-- AC ← AC + M[SP + off] (R163) -/
  | addl (off : Nat)
  /-- AC ← AC − M[SP + off] (R164) -/
  | subl (off : Nat)
  /-- to `addr` if AC < 0 (R184) -/
  | jneg (addr : Nat)
  /-- to `addr` if AC ≠ 0 (R185) -/
  | jnze (addr : Nat)
  /-- push PC + 1, to `addr` (R186) -/
  | call (addr : Nat)
  /-- push M[addr] (R201) -/
  | pshi (addr : Nat)
  /-- M[addr] ← pop (R202) -/
  | popi (addr : Nat)
  /-- push k (R203) -/
  | push (k : Nat)
  /-- AC ← pop; the operand is carried and ignored (R204, R83) -/
  | pop (y : Nat)
  /-- to the popped word; no operand (R187, R83) -/
  | retn
  /-- exchange AC and M[addr] (R205) -/
  | swap (addr : Nat)
  /-- SP ← SP − n (R206) -/
  | insp (n : Nat)
  /-- SP ← SP + n (R207) -/
  | desp (n : Nat)
  deriving DecidableEq, Repr

/-- The instruction's opcode. -/
def Instr.mnemonic : Instr → Mnemonic
  | .lodd _ => .basic .lodd
  | .stod _ => .basic .stod
  | .addd _ => .basic .addd
  | .subd _ => .basic .subd
  | .jpos _ => .basic .jpos
  | .jzer _ => .basic .jzer
  | .jump _ => .basic .jump
  | .loco _ => .basic .loco
  | .lodl _ => .basic .lodl
  | .stol _ => .basic .stol
  | .addl _ => .basic .addl
  | .subl _ => .basic .subl
  | .jneg _ => .basic .jneg
  | .jnze _ => .basic .jnze
  | .call _ => .basic .call
  | .pshi _ => .ext .pshi
  | .popi _ => .ext .popi
  | .push _ => .ext .push
  | .pop _ => .ext .pop
  | .retn => .ext .retn
  | .swap _ => .ext .swap
  | .insp _ => .ext .insp
  | .desp _ => .ext .desp

/-- The instruction's operand; RETN has none (R76). -/
def Instr.operand : Instr → Option Int
  | .lodd a | .stod a | .addd a | .subd a | .jpos a | .jzer a | .jump a
  | .lodl a | .stol a | .addl a | .subl a | .jneg a | .jnze a | .call a
  | .pshi a | .popi a | .push a | .pop a | .swap a | .insp a | .desp a => some (a : Int)
  | .loco k => some k
  | .retn => none

/-- What the decoder returns for a fetched word (R78): an instruction, or one of the two forms that
no row of the opcode table covers. -/
inductive Decoded where
  | instr (i : Instr)
  /-- An unassigned extended sub-code (R79). -/
  | undef (sub : BitVec 4) (y : BitVec Params.extWidth)
  /-- A word outside 0..0xFFFF (R80). -/
  | illegal (w : Int)
  deriving DecidableEq, Repr

end Sys2Proof
end

