-- ==== Sys2Proof/WellFormed.lean ====
section
/-! DEFINITION. The operand ranges an encoding can carry (spec/30_encoding.md R76, R84): 0..4095 for a
basic operand, −2048..2047 for LOCO, 0..255 for an extended operand. -/

namespace Sys2Proof

/-- A 12-bit unsigned operand (`zext_12`, R76). -/
def fitsBasic (x : Nat) : Bool := decide (x ≤ Params.basicMax)

/-- An 8-bit unsigned operand (`zext_8`, R76). -/
def fitsExt (y : Nat) : Bool := decide (y ≤ Params.extMax)

/-- A signed 12-bit immediate (`sext_12`, R76). -/
def fitsImm (k : Int) : Bool := decide (Params.immMin ≤ k ∧ k ≤ Params.immMax)

/-- Every operand lies in the range of its field. -/
def Instr.wf : Instr → Bool
  | .lodd a | .stod a | .addd a | .subd a | .jpos a | .jzer a | .jump a
  | .lodl a | .stol a | .addl a | .subl a | .jneg a | .jnze a | .call a => fitsBasic a
  | .loco k => fitsImm k
  | .pshi a | .popi a | .push a | .pop a | .swap a | .insp a | .desp a => fitsExt a
  | .retn => true

end Sys2Proof
end

