-- ==== Sys2Proof/Decode.lean ====
section
/-! DEFINITION. The decoder and the encoder of spec/30_encoding.md, both made from one opcode map. -/

namespace Sys2Proof

/-! ### The opcode map (`OPCODE_MAP`, R74, R75; decisions D3 and D4; log entry 8) -/

/-- Bits 15:12 of a basic opcode (R74). -/
def basicCode : BasicOp → BitVec 4
  | .lodd => 0x0
  | .stod => 0x1
  | .addd => 0x2
  | .subd => 0x3
  | .jpos => 0x4
  | .jzer => 0x5
  | .jump => 0x6
  | .loco => 0x7
  | .lodl => 0x8
  | .stol => 0x9
  | .addl => 0xA
  | .subl => 0xB
  | .jneg => 0xC
  | .jnze => 0xD
  | .call => 0xE

/-- Bits 11:8 of an extended opcode (R75). -/
def extCode : ExtOp → BitVec 4
  | .pshi => 0x0
  | .popi => 0x1
  | .push => 0x2
  | .pop => 0x3
  | .retn => 0x4
  | .swap => 0x5
  | .insp => 0xC
  | .desp => 0xE

/-- Bits 15:12 of every extended word, 0xF (R72): the decoder's test and the encoder's prefix. -/
def extMark : BitVec 4 := 0xF

/-- 0xF000, the word the encoder adds an extended sub-code and operand to (R75, R82). -/
def extBase : InstrWord := extMark ++ (0 : BitVec Params.basicWidth)

/-- `BASIC_MAP[op]` (R78). -/
def basicOfCode (c : BitVec 4) : Option BasicOp := basicOps.find? fun b => basicCode b == c

/-- `EXT_MAP[sub]` (R78). -/
def extOfCode (c : BitVec 4) : Option ExtOp := extOps.find? fun e => extCode e == c

/-! ### Fields of a word (R71, R72) -/

/-- `w[15:12]` -/
def opField (w : InstrWord) : BitVec 4 := w.extractLsb' Params.basicWidth 4

/-- `w[11:0]` -/
def basicField (w : InstrWord) : BitVec Params.basicWidth := w.extractLsb' 0 Params.basicWidth

/-- `w[11:8]` -/
def subField (w : InstrWord) : BitVec 4 := w.extractLsb' Params.extWidth 4

/-- `w[7:0]` -/
def extField (w : InstrWord) : BitVec Params.extWidth := w.extractLsb' 0 Params.extWidth

/-! ### Operand assembly (R76) -/

/-- `zext_N`: an unsigned field as a number. -/
def zext {n : Nat} (v : BitVec n) : Nat := v.toNat

/-- `sext_N`: a two's-complement field as a number. -/
def sext {n : Nat} (v : BitVec n) : Int := v.toInt

/-- A basic opcode with its operand: `sext_12` for LOCO, `zext_12` for the others. -/
def basicInstr (b : BasicOp) (x : BitVec Params.basicWidth) : Instr :=
  match b with
  | .lodd => .lodd (zext x)
  | .stod => .stod (zext x)
  | .addd => .addd (zext x)
  | .subd => .subd (zext x)
  | .jpos => .jpos (zext x)
  | .jzer => .jzer (zext x)
  | .jump => .jump (zext x)
  | .loco => .loco (sext x)
  | .lodl => .lodl (zext x)
  | .stol => .stol (zext x)
  | .addl => .addl (zext x)
  | .subl => .subl (zext x)
  | .jneg => .jneg (zext x)
  | .jnze => .jnze (zext x)
  | .call => .call (zext x)

/-- An extended opcode with its operand, `zext_8`; RETN drops it (R83). -/
def extInstr (e : ExtOp) (y : BitVec Params.extWidth) : Instr :=
  match e with
  | .pshi => .pshi (zext y)
  | .popi => .popi (zext y)
  | .push => .push (zext y)
  | .pop => .pop (zext y)
  | .retn => .retn
  | .swap => .swap (zext y)
  | .insp => .insp (zext y)
  | .desp => .desp (zext y)

/-! ### The decoder -/

/-- The decoder on a 16-bit word (R78). Bits 15:12 alone tell the format (R73). No word reaches the last
arm: every other code than 0xF is a basic opcode's (R74; `basicOfCode_none_iff`). -/
def decodeWord (w : InstrWord) : Decoded :=
  if opField w = extMark then
    match extOfCode (subField w) with
    | some e => .instr (extInstr e (extField w))
    | none => .undef (subField w) (extField w)
  else
    match basicOfCode (opField w) with
    | some b => .instr (basicInstr b (basicField w))
    | none => .illegal (w.toNat : Int)

/-- The decoder on any fetched integer, under either setting of `WIDE_WORD_DECODE` (R78, R80). -/
def decodeUnder (wide : Params.WideWordDecode) (w : Int) : Decoded :=
  if 0 ≤ w ∧ w ≤ 0xFFFF then decodeWord (BitVec.ofInt 16 w)
  else
    match wide with
    | .fault => .illegal w
    | .low16 => decodeWord (BitVec.ofInt 16 w)

/-- The decoder (R78): total, and it raises no error. -/
def decode (w : Int) : Decoded := decodeUnder Params.wideWordDecode w

/-! ### The encoder (R82, R83) -/

/-- `(BASIC_CODE[mn] << 12) | (k & 0xFFF)`; a negative `k` is masked in two's complement (D32). -/
def basicWord (b : BasicOp) (k : Int) : InstrWord := basicCode b ++ BitVec.ofInt Params.basicWidth k

/-- `0xF000 | (EXT_CODE[mn] << 8) | (k & 0xFF)`. -/
def extWord (e : ExtOp) (k : Int) : InstrWord :=
  extBase ||| (extCode e ++ BitVec.ofInt Params.extWidth k).setWidth 16

/-- `encode(mn, operand)` (R82): an absent operand encodes as 0, and RETN's is discarded (R83). -/
def encodeMnemonic (mn : Mnemonic) (operand : Option Int) : InstrWord :=
  let k := operand.getD 0
  match mn with
  | .basic b => basicWord b k
  | .ext .retn => extWord .retn 0
  | .ext e => extWord e k

/-- The word of an instruction. -/
def encode (i : Instr) : InstrWord := encodeMnemonic i.mnemonic i.operand

/-- An instruction word as a memory value: the integer 0..0xFFFF it spells. -/
def wordValue (w : InstrWord) : Int := (w.toNat : Int)

/-! ### The opcode table's numbering -/

/-- The instruction the decoder reads from bits `w`, numbered as spec/opcode_table.json numbers them.
Every instruction is one 16-bit word (R70), so the bits of `w` below `nbits` are the word. -/
def decodeTableWord (nbits w : Nat) : Option Instr :=
  match decode ((w % 2 ^ nbits : Nat) : Int) with
  | .instr i => some i
  | .undef _ _ => none
  | .illegal _ => none

end Sys2Proof
end

