-- ==== Sys2Proof/Machine/Flags.lean ====
section
/-! DEFINITION. The block has no flags (spec/10_state.md R28). What stands in their place is the test
each conditional jump makes of AC as an exact integer (spec/40_datapath.md R117). -/

namespace Sys2Proof.Machine

/-- JPOS: `AC >= 0` under `JPOS_ON_ZERO`, else `AC > 0`. -/
def positiveUnder (onZero : Bool) (ac : Int) : Bool :=
  if onZero then decide (0 ≤ ac) else decide (0 < ac)

/-- JPOS under the spec's setting (D6; log entry 10). -/
def isPositive (ac : Int) : Bool := positiveUnder Params.jposOnZero ac

/-- JZER: `AC == 0`. -/
def isZero (ac : Int) : Bool := decide (ac = 0)

/-- JNEG: `AC < 0`. -/
def isNegative (ac : Int) : Bool := decide (ac < 0)

/-- JNZE: `AC != 0`. -/
def isNonzero (ac : Int) : Bool := decide (ac ≠ 0)

end Sys2Proof.Machine
end

