-- ==== Sys2Proof/Config.lean ====
section
/-! DEFINITION. What the spec leaves open: the free values and the one open parameter. None of these
constants has a body, so nothing in Lean can evaluate one, and a theorem holds whatever they are.
The quantities the spec fixes or decides stand in Sys2Proof/Machine/Params.lean, and the opcode map
in Sys2Proof/Decode.lean. -/

namespace Sys2Proof.Config

/-- TIR after the step that made draw `n` (spec/10_state.md R25, D14; log entry 3). -/
opaque freeTir : Nat → Int

/-- MAR after the step that made draw `n` (spec/10_state.md R26, D14; log entry 3). -/
opaque freeMar : Nat → Int

/-- MBR after the step that made draw `n` (spec/10_state.md R27, D14; log entry 3). -/
opaque freeMbr : Nat → Int

/-- The ALU trace's operation tag (spec/40_datapath.md R123; log entry 5). -/
opaque freeAluTag : Nat → String

/-- The ALU trace's input A where the instruction gives it none (R123; log entries 6 and 7). -/
opaque freeAluInputA : Nat → Int

/-- The ALU trace's input B of an instruction that does not use the ALU (R123; log entry 7). -/
opaque freeAluInputB : Nat → Int

/-- The ALU trace's result of an instruction that does not use the ALU (R123; log entry 7). -/
opaque freeAluResult : Nat → Int

/-- The text written to `lastMicro` (R123; log entry 5). -/
opaque freeMicro : Nat → String

/-- The `from` label of the bus trace (R123; log entry 5). -/
opaque freeBusFrom : Nat → String

/-- The `to` label of the bus trace (R123; log entry 5). -/
opaque freeBusTo : Nat → String

/-- The message text of a host result with condition code `code` (spec/60_exceptions.md R237; log entry 23). -/
opaque freeMessage : (code : Nat) → (draw : Nat) → String

/-- How `getStateReport` prints an IR outside 0..0xFFFF (spec/60_exceptions.md R253; log entry 24). -/
opaque freeIrText : Int → String

/-- `HOST_EOP_SUCCESS` (spec/00_scope.md R4, D37): OPEN, whether the host reports `EndOfProgram`
with `success = true` (log entry 15). -/
opaque hostEopSuccess : Bool

end Sys2Proof.Config
end

