-- ==== Sys2Proof/Machine/State.lean ====
section
/-! DEFINITION. The state of the block (spec/10_state.md), the state after reset (R37), and the ways a
step can end other than `Ok` (spec/60_exceptions.md R230). -/

namespace Sys2Proof.Machine

/-- The engine's two durable states (R34). -/
inductive EngineMode where
  | idle
  | running
  deriving DecidableEq, Repr

/-- `{operation, inputA, inputB, result}` (R35). -/
structure AluTrace where
  operation : Option String
  inputA : Int
  inputB : Int
  result : Int
  deriving DecidableEq, Repr

/-- `{from, to}`: symbolic transfer labels (R35). -/
structure BusTrace where
  source : String
  dest : String
  deriving DecidableEq, Repr

/-- `{cycle, micro, bus}` (R35; spec/40_datapath.md R124). -/
structure HistoryEntry where
  cycle : Int
  micro : String
  bus : BusTrace
  deriving DecidableEq, Repr

/-- The 4096 words (R30), as the list of those that differ from what an unlisted address reads as
(`Params.resetWord`): addresses strictly rise and no listed word equals it (`Memory.wf`). A word is an
unbounded integer, so a cell holds an `Int` and not a byte (log entry 1). -/
abbrev Memory := List (Nat × Int)

/-- Everything spec/10_state.md gives the block; every value is an unbounded integer (R20, D2; log entry 9). -/
structure State where
  /-- program counter (R22) -/
  pc : Int
  /-- accumulator (R21) -/
  ac : Int
  /-- stack pointer (R23) -/
  sp : Int
  /-- instruction register (R24) -/
  ir : Int
  /-- unspecified after a step (R25) -/
  tir : Int
  /-- unspecified after a step (R26) -/
  mar : Int
  /-- unspecified after a step (R27) -/
  mbr : Int
  /-- `M[0]` to `M[4095]` (R30) -/
  mem : Memory
  /-- instructions executed (R32) -/
  cycleCount : Int
  /-- true only during a `run` call (R33) -/
  running : Bool
  /-- Idle or Running (R34) -/
  mode : EngineMode
  /-- the last ALU operation (R35) -/
  aluTrace : AluTrace
  /-- the last executed decoded instruction (R35) -/
  lastInstruction : Option Instr
  /-- the last micro-instruction string (R35) -/
  lastMicro : String
  /-- the last bus transfer (R35) -/
  busTrace : Option BusTrace
  /-- one entry per executed instruction, oldest first (R35) -/
  history : List HistoryEntry
  /-- THE MODEL'S OWN: how many times the free values have been drawn (log entry 3) -/
  draws : Nat
  deriving DecidableEq, Repr

/-- Reset values (R37; R260, R261). The one field the spec does not name, `draws`, starts at 0
(DESIGN CHOICE, log entry 3). -/
def State.reset : State where
  pc := Params.resetPc
  ac := 0
  sp := Params.resetSp
  ir := 0
  tir := 0
  mar := 0
  mbr := 0
  mem := []
  cycleCount := 0
  running := false
  mode := .idle
  aluTrace := { operation := none, inputA := 0, inputB := 0, result := 0 }
  lastInstruction := none
  lastMicro := ""
  busTrace := none
  history := []
  draws := 0

/-- How a step ends when it does not return `Ok`: the spec's `Halt(EndOfProgram)` and its three
`Fault(code, info)` (spec/40_datapath.md R111). Each carries what R237 records and the state the host
then holds (R239, R122): the block can be inspected and stepped again from it (log entry 2). -/
inductive Fault where
  /-- Raised by a step that fetches the halt sentinel, the normal end of a program (R232). Safe: the
  spec's own outcome. -/
  | endOfProgram (after : State)
  /-- Raised by a fetch with PC outside 0..4095, and by a data access outside it (R231). Safe: where
  the source is silent (D7, D8) the machine may go on, and the model stops. -/
  | outOfBounds (addr : Int) (after : State)
  /-- Raised by a pop with SP ≥ 4095: POP, POPI, RETN (R233). Safe: the spec's own outcome. -/
  | stackUnderflow (sp : Int) (after : State)
  /-- Raised by a step whose fetched word decodes to UNDEF or ILLEGAL (R234). Safe: where the source
  is silent (D9, D10) the machine may go on, and the model stops. -/
  | illegalInstruction (pc w : Int) (after : State)
  deriving DecidableEq, Repr

/-- A step without a meaning. -/
inductive Refusal where
  /-- Raised by `exec`'s arm of an instruction that has no meaning yet; no arm is left so. Safe: the
  model stops where the machine goes on. -/
  | notModelled (mnemonic : String)
  deriving DecidableEq, Repr

/-- What a check inside a step raises, before the state is attached to it (R238). -/
inductive Trap where
  /-- an address outside memory (R231) -/
  | outOfBounds (addr : Int)
  /-- a pop of an empty stack (R233) -/
  | stackUnderflow (sp : Int)
  /-- a word that is no instruction (R234) -/
  | illegalInstruction (pc w : Int)
  deriving DecidableEq, Repr

/-- The outcomes of a step. -/
abbrev Outcome := Host.Outcome State Fault Refusal

end Sys2Proof.Machine
end

