-- ==== Sys2Proof/Machine/Alu.lean ====
section
/-! DEFINITION. The ALU's three functions (spec/40_datapath.md R115; there is no logic function and no
shifter, R116) and its trace (R123). -/

namespace Sys2Proof.Machine

/-- ADD, SUB and PASS (R115). -/
inductive AluOp where
  | add
  | sub
  | pass
  deriving DecidableEq, Repr

/-- Exact integers: nothing wraps and nothing saturates (R115, D2). -/
def alu (op : AluOp) (a b : Int) : Int :=
  match op with
  | .add => a + b
  | .sub => a - b
  | .pass => b

/-- The trace of an ALU operation (R123): its operands and its result, under a free tag. PASS has no
operand `a`, so its input A is free (log entries 5 and 6). -/
def aluTraceOf (op : AluOp) (a b : Int) (draw : Nat) : AluTrace where
  operation := some (Config.freeAluTag draw)
  inputA :=
    match op with
    | .add => a
    | .sub => a
    | .pass => Config.freeAluInputA draw
  inputB := b
  result := alu op a b

/-- The trace of an instruction that does not use the ALU: every part is free (R123; log entry 7). -/
def noAluTrace (draw : Nat) : AluTrace where
  operation := some (Config.freeAluTag draw)
  inputA := Config.freeAluInputA draw
  inputB := Config.freeAluInputB draw
  result := Config.freeAluResult draw

/-- AC gets the ALU's result on AC and `b`, and the trace is written. -/
def State.aluToAc (s : State) (op : AluOp) (b : Int) : State :=
  { s with ac := alu op s.ac b, aluTrace := aluTraceOf op s.ac b s.draws }

/-- The trace is written by an instruction that does not use the ALU. -/
def State.withoutAlu (s : State) : State :=
  { s with aluTrace := noAluTrace s.draws }

end Sys2Proof.Machine
end

