-- ==== Sys2Proof/Machine/Ops.lean ====
section
/-! DEFINITION. The operations every instruction shares: the memory words, the checked memory port
(spec/20_memory.md R54, R55), the stack (spec/40_datapath.md R118, R119), the PC sequencer (R113),
raising a fault (R122, R239), the fetch and the end of an `Ok` step (R112, R123, R124).

No instruction returns from a fault (spec/60_exceptions.md R240), so there is no return operation: the
host steps again from the state the fault carries. -/

namespace Sys2Proof.Machine

/-- An address inside 0..4095: not `a < 0 or a >= MEMORY_SIZE` (R52, R54, R55). -/
abbrev InMemory (a : Int) : Prop := 0 ≤ a ∧ ¬ Params.memorySize ≤ a

/-! ### Memory words -/

/-- The word at an address: the listed one, or what an unlisted address reads as. -/
def Memory.read (m : Memory) (a : Nat) : Int :=
  match m with
  | [] => Params.resetWord
  | (b, v) :: rest => if a = b then v else Memory.read rest a

/-- Writes one word and keeps the canonical form: a word equal to what an unlisted address reads as is
removed, any other stands at its place in the rising order. -/
def Memory.write (m : Memory) (a : Nat) (v : Int) : Memory :=
  match m with
  | [] => if v = Params.resetWord then [] else [(a, v)]
  | (b, w) :: rest =>
    if a < b then
      if v = Params.resetWord then (b, w) :: rest else (a, v) :: (b, w) :: rest
    else if a = b then
      if v = Params.resetWord then rest else (a, v) :: rest
    else (b, w) :: Memory.write rest a v

/-- The canonical form from address `lo` up: rising addresses, all inside memory, and no word equal to
what an unlisted address reads as. -/
def Memory.wfFrom (lo : Nat) (m : Memory) : Bool :=
  match m with
  | [] => true
  | (a, v) :: rest =>
    decide (lo ≤ a) && decide (InMemory a) && decide (v ≠ Params.resetWord)
      && Memory.wfFrom (a + 1) rest

/-- The canonical form. -/
def Memory.wf (m : Memory) : Bool := Memory.wfFrom 0 m

/-! ### The memory port -/

/-- `M[a]` as state, without the port's check. -/
def State.word (s : State) (a : Int) : Int := s.mem.read a.toNat

/-- `MemRead(a, 1)` (R54). -/
def State.memRead (s : State) (a : Int) : Except Trap Int :=
  if InMemory a then .ok (s.word a) else .error (.outOfBounds a)

/-- `M[a] <- v` as state, without the port's check. -/
def State.setWord (s : State) (a v : Int) : State := { s with mem := s.mem.write a.toNat v }

/-- `MemWrite(a, 1, v)` (R55). -/
def State.memWrite (s : State) (a v : Int) : Except Trap State :=
  if InMemory a then .ok (s.setWord a v) else .error (.outOfBounds a)

/-! ### The stack pointer controller -/

/-- `SP <- v`, unchecked (R23, R120). -/
def State.setSp (s : State) (v : Int) : State := { s with sp := v }

/-- Where a push stores: the word below SP (R118). -/
def State.pushAddr (s : State) : Int := s.sp - 1

/-- `push(v)` (R118). -/
def State.push (s : State) (v : Int) : Except Trap State := do
  let t ← s.memWrite s.pushAddr v
  return t.setSp s.pushAddr

/-- `pop()` (R119): the top of stack and the state with SP raised; the word stays in memory. -/
def State.pop (s : State) : Except Trap (Int × State) :=
  if s.sp ≥ Params.stackBase then .error (.stackUnderflow s.sp)
  else do
    let v ← s.memRead s.sp
    return (v, s.setSp (s.sp + 1))

/-! ### The PC sequencer (R113, R114) -/

/-- The next PC is the target of a transfer. -/
def State.goTo (s : State) (target : Int) : State := { s with pc := target }

/-- The next PC is PC + 1; it does not wrap. -/
def State.advance (s : State) : State := s.goTo (s.pc + 1)

/-- A conditional jump (R113). -/
def State.branch (s : State) (taken : Bool) (target : Int) : State :=
  if taken then s.goTo target else s.advance

/-! ### Raising a fault (R122, R239) -/

/-- A fault transfers control to nothing: it is reported with what R237 records and with the state
`s` from before the instruction's own writes. -/
def raiseFault (t : Trap) (s : State) : Fault :=
  match t with
  | .outOfBounds a => .outOfBounds a s
  | .stackUnderflow sp => .stackUnderflow sp s
  | .illegalInstruction pc w => .illegalInstruction pc w s

/-- Commit or nothing (R122, D11): the state an instruction computed from `s`, or the fault with `s`
itself. -/
def State.commit (s : State) (r : Except Trap State) : Outcome :=
  match r with
  | .ok t => .next t
  | .error t => .fault (raiseFault t s)

/-- ILLEGAL(w), a word outside 0..0xFFFF: `IllegalInstruction(PC, w)` (R112; spec/30_encoding.md R80;
D10; log entry 12). -/
def execIllegal (w : Int) (s : State) : Outcome :=
  s.commit (.error (.illegalInstruction s.pc w))

/-- The state after a fault or a halt, as the host holds it (R239). -/
def Fault.after (f : Fault) : State :=
  match f with
  | .endOfProgram s => s
  | .outOfBounds _ s => s
  | .stackUnderflow _ s => s
  | .illegalInstruction _ _ s => s

/-- The codes of R230. -/
def Fault.code (f : Fault) : Nat :=
  match f with
  | .endOfProgram _ => 1
  | .outOfBounds _ _ => 2
  | .stackUnderflow _ _ => 3
  | .illegalInstruction _ _ _ => 4

/-- What R237 records of the condition. -/
def Fault.info (f : Fault) : List Int :=
  match f with
  | .endOfProgram _ => []
  | .outOfBounds a _ => [a]
  | .stackUnderflow sp _ => [sp]
  | .illegalInstruction pc w _ => [pc, w]

/-! ### The step's own parts (R112) -/

/-- TIR, MAR and MBR take fresh free values (R25 to R27, D14; log entry 3). -/
def State.drawRegisters (s : State) : State :=
  { s with
    tir := Config.freeTir s.draws
    mar := Config.freeMar s.draws
    mbr := Config.freeMbr s.draws
    draws := s.draws + 1 }

/-- `IR <- w`, with the unspecified registers drawn. -/
def State.setIr (s : State) (w : Int) : State := { s.drawRegisters with ir := w }

/-- `IR <- M[PC]`, or `OutOfBounds(PC)` with no state changed at all (R112, D8; log entry 4). -/
def State.fetch (s : State) : Except Trap State := do
  let w ← s.memRead s.pc
  return s.setIr w

/-- The fetched word is the halt sentinel (spec/30_encoding.md R81). -/
def State.atSentinel (s : State) : Bool := s.ir == Params.haltSentinel

/-- The bus trace of the step that made draw `n` (R123). -/
def busTraceOf (n : Nat) : BusTrace where
  source := Config.freeBusFrom n
  dest := Config.freeBusTo n

/-- The end of an `Ok` step (R112, R123, R124): one more cycle, the last instruction, the traces, and
one history entry that carries the new cycle count. -/
def State.retire (s : State) (i : Instr) : State :=
  { s with
    cycleCount := s.cycleCount + 1
    lastInstruction := some i
    lastMicro := Config.freeMicro s.draws
    busTrace := some (busTraceOf s.draws)
    history := s.history ++
      [{ cycle := s.cycleCount + 1, micro := Config.freeMicro s.draws, bus := busTraceOf s.draws }] }

/-- An executed instruction is retired; any other outcome stands as it is. -/
def finish (i : Instr) (o : Outcome) : Outcome :=
  match o with
  | .next t => .next (t.retire i)
  | .fault f => .fault f
  | .refused r => .refused r

end Sys2Proof.Machine
end

