-- ==== Sys2Proof/Machine/Operands.lean ====
section
/-! DEFINITION. The effective addresses of spec/20_memory.md R53 and the loads and stores through
them. No addressing mode changes a base register. -/

namespace Sys2Proof.Machine

/-- Direct: `ea = operand`, basic (0..4095) or extended (0..255) (R53; spec/41_direct.md R140;
spec/44_extended.md R200). -/
def directEa (addr : Nat) : Int := addr

/-- Local: `ea = SP + operand`, an exact integer, checked only by the port (R53;
spec/40_datapath.md R121; spec/42_local.md R160). -/
def State.localEa (s : State) (off : Nat) : Int := s.sp + off

/-- `AC <- op(AC, MemRead(ea, 1))`, then PC + 1: loads, adds and subtracts. -/
def State.aluFromMemory (s : State) (op : AluOp) (ea : Int) : Outcome :=
  s.commit do
    let v ← s.memRead ea
    return (s.aluToAc op v).advance

/-- `MemWrite(ea, 1, AC)`, then PC + 1: stores. -/
def State.storeAc (s : State) (ea : Int) : Outcome :=
  s.commit do
    let t ← s.memWrite ea s.ac
    return t.withoutAlu.advance

/-- `push(v)`, then PC + 1. -/
def State.pushAndAdvance (s : State) (v : Int) : Outcome :=
  s.commit do
    let t ← s.push v
    return t.withoutAlu.advance

/-- `PC <- target` or PC + 1: every jump. -/
def State.jumpIf (s : State) (taken : Bool) (target : Nat) : Outcome :=
  s.commit (.ok (s.withoutAlu.branch taken target))

end Sys2Proof.Machine
end

