-- ==== Sys2Proof/Machine/Control.lean ====
section
/-! DEFINITION. The control transfers (spec/43_control.md), written by their net effect on PC. -/

namespace Sys2Proof.Machine

/-- JUMP (R181). -/
def execJump (addr : Nat) (s : State) : Outcome := s.jumpIf true addr

/-- JPOS (R182). -/
def execJpos (addr : Nat) (s : State) : Outcome := s.jumpIf (isPositive s.ac) addr

/-- JZER (R183). -/
def execJzer (addr : Nat) (s : State) : Outcome := s.jumpIf (isZero s.ac) addr

/-- JNEG (R184). -/
def execJneg (addr : Nat) (s : State) : Outcome := s.jumpIf (isNegative s.ac) addr

/-- JNZE (R185). -/
def execJnze (addr : Nat) (s : State) : Outcome := s.jumpIf (isNonzero s.ac) addr

/-- CALL (R186): pushes `PC + CALL_RETURN_OFFSET` (D5; log entry 11). -/
def execCall (addr : Nat) (s : State) : Outcome :=
  s.commit do
    let t ← s.push (s.pc + Params.callReturnOffset)
    return t.withoutAlu.goTo addr

/-- RETN (R187): the popped word is the target, unchecked. -/
def execRetn (s : State) : Outcome :=
  s.commit do
    let (v, t) ← s.pop
    return t.withoutAlu.goTo v

end Sys2Proof.Machine
end

