-- ==== Sys2Proof/Machine/Direct.lean ====
section
/-! DEFINITION. The direct-address and immediate instructions (spec/41_direct.md). -/

namespace Sys2Proof.Machine

/-- LODD (R141). -/
def execLodd (addr : Nat) (s : State) : Outcome := s.aluFromMemory .pass (directEa addr)

/-- STOD (R142). -/
def execStod (addr : Nat) (s : State) : Outcome := s.storeAc (directEa addr)

/-- ADDD (R143). -/
def execAddd (addr : Nat) (s : State) : Outcome := s.aluFromMemory .add (directEa addr)

/-- SUBD (R144). -/
def execSubd (addr : Nat) (s : State) : Outcome := s.aluFromMemory .sub (directEa addr)

/-- LOCO (R145). -/
def execLoco (k : Int) (s : State) : Outcome := s.commit (.ok (s.aluToAc .pass k).advance)

end Sys2Proof.Machine
end

