-- ==== Sys2Proof/Machine/Extended.lean ====
section
/-! DEFINITION. The extended family but RETN (spec/44_extended.md), and the unassigned
sub-codes. -/

namespace Sys2Proof.Machine

/-- PSHI (R201). -/
def execPshi (addr : Nat) (s : State) : Outcome :=
  s.commit do
    let v ← s.memRead (directEa addr)
    let t ← s.push v
    return t.withoutAlu.advance

/-- POPI (R202). -/
def execPopi (addr : Nat) (s : State) : Outcome :=
  s.commit do
    let (v, t) ← s.pop
    let u ← t.memWrite (directEa addr) v
    return u.withoutAlu.advance

/-- PUSH (R203). -/
def execPush (k : Nat) (s : State) : Outcome := s.pushAndAdvance k

/-- POP (R204); its operand is not used. -/
def execPop (_y : Nat) (s : State) : Outcome :=
  s.commit do
    let (v, t) ← s.pop
    return (t.aluToAc .pass v).advance

/-- SWAP (R205). -/
def execSwap (addr : Nat) (s : State) : Outcome :=
  s.commit do
    let v ← s.memRead (directEa addr)
    let t ← s.memWrite (directEa addr) s.ac
    return (t.aluToAc .pass v).advance

/-- INSP (R206): allocates. -/
def execInsp (n : Nat) (s : State) : Outcome :=
  s.commit (.ok (s.setSp (s.sp - n)).withoutAlu.advance)

/-- DESP (R207): releases. -/
def execDesp (n : Nat) (s : State) : Outcome :=
  s.commit (.ok (s.setSp (s.sp + n)).withoutAlu.advance)

/-- UNDEF(sub, y): always `IllegalInstruction(PC, IR)` (R208; D9; log entry 13). -/
def execUndef (_sub : BitVec 4) (_y : BitVec Params.extWidth) (s : State) : Outcome :=
  s.commit (.error (.illegalInstruction s.pc s.ir))

end Sys2Proof.Machine
end

