-- ==== Sys2Proof/Machine/Local.lean ====
section
/-! DEFINITION. The SP-relative instructions (spec/42_local.md). SP does not change. -/

namespace Sys2Proof.Machine

/-- LODL (R161). -/
def execLodl (off : Nat) (s : State) : Outcome := s.aluFromMemory .pass (s.localEa off)

/-- STOL (R162). -/
def execStol (off : Nat) (s : State) : Outcome := s.storeAc (s.localEa off)

/-- ADDL (R163). -/
def execAddl (off : Nat) (s : State) : Outcome := s.aluFromMemory .add (s.localEa off)

/-- SUBL (R164). -/
def execSubl (off : Nat) (s : State) : Outcome := s.aluFromMemory .sub (s.localEa off)

end Sys2Proof.Machine
end

