-- ==== Sys2Proof/Machine/Dispatch.lean ====
section
/-! DEFINITION. `execute(d)` of spec/40_datapath.md R125: one arm per instruction, no default. It writes
the instruction's effects, the ALU trace and the next PC, or raises; the step does the rest (R112). -/

namespace Sys2Proof.Machine

def exec (i : Instr) (s : State) : Host.Outcome State Fault Refusal :=
  match i with
  | .lodd addr => Sys2Proof.Machine.execLodd addr s
  | .stod addr => Sys2Proof.Machine.execStod addr s
  | .addd addr => Sys2Proof.Machine.execAddd addr s
  | .subd addr => Sys2Proof.Machine.execSubd addr s
  | .jpos addr => Sys2Proof.Machine.execJpos addr s
  | .jzer addr => Sys2Proof.Machine.execJzer addr s
  | .jump addr => Sys2Proof.Machine.execJump addr s
  | .loco k => Sys2Proof.Machine.execLoco k s
  | .lodl off => Sys2Proof.Machine.execLodl off s
  | .stol off => Sys2Proof.Machine.execStol off s
  | .addl off => Sys2Proof.Machine.execAddl off s
  | .subl off => Sys2Proof.Machine.execSubl off s
  | .jneg addr => Sys2Proof.Machine.execJneg addr s
  | .jnze addr => Sys2Proof.Machine.execJnze addr s
  | .call addr => Sys2Proof.Machine.execCall addr s
  | .pshi addr => Sys2Proof.Machine.execPshi addr s
  | .popi addr => Sys2Proof.Machine.execPopi addr s
  | .push k => Sys2Proof.Machine.execPush k s
  | .pop y => Sys2Proof.Machine.execPop y s
  | .retn => Sys2Proof.Machine.execRetn s
  | .swap addr => Sys2Proof.Machine.execSwap addr s
  | .insp n => Sys2Proof.Machine.execInsp n s
  | .desp n => Sys2Proof.Machine.execDesp n s

end Sys2Proof.Machine
end

