-- ==== Sys2Proof/Machine/Step.lean ====
section
/-! DEFINITION. One step (spec/40_datapath.md R110 to R112, in the order of spec/60_exceptions.md R238):
the fetch bounds check, the halt check, decoding, the instruction, and its retirement. -/

namespace Sys2Proof.Machine

/-- `execute` on a decoded form (R125): an instruction is executed and retired, UNDEF and ILLEGAL raise. -/
def issue (d : Decoded) (s : State) : Host.Outcome State Fault Refusal :=
  match d with
  | .instr i => finish i (exec i s)
  | .undef sub y => execUndef sub y s
  | .illegal w => execIllegal w s

/-- `step()` (R112). -/
def step (s : State) : Host.Outcome State Fault Refusal :=
  match s.fetch with
  | .error t => .fault (raiseFault t s)
  | .ok f => if f.atSentinel then .fault (.endOfProgram f) else issue (decode f.ir) f

/-- `s` with an instruction word, numbered as in `decodeTableWord`, stored where the next step fetches:
at the address PC holds. Where PC is outside memory nothing is fetched, and `s` stays as it is. It
stands for the host's load of a program (log entry 17). -/
def State.withFetchWord (s : State) (nbits w : Nat) : State :=
  if InMemory s.pc then s.setWord s.pc ((w % 2 ^ nbits : Nat) : Int) else s

end Sys2Proof.Machine
end

