-- ==== Sys2Proof/Machine/Accesses.lean ====
section
/-! DEFINITION. What each instruction asks of the memory port beyond its fetch, in order
(spec/20_memory.md R57), and the port itself at transaction level (R56). The meanings make these
accesses through the same effective addresses; laws and statements compare the two. -/

namespace Sys2Proof.Machine

/-- One access of one word. -/
inductive Access where
  | read (addr : Int)
  | write (addr : Int)
  deriving DecidableEq, Repr

def Access.addr : Access → Int
  | .read a => a
  | .write a => a

/-- The table of R57. -/
def accesses (i : Instr) (s : State) : List Access :=
  match i with
  | .lodd a | .addd a | .subd a => [.read (directEa a)]
  | .stod a => [.write (directEa a)]
  | .loco _ | .jump _ | .jpos _ | .jzer _ | .jneg _ | .jnze _ | .insp _ | .desp _ => []
  | .lodl off | .addl off | .subl off => [.read (s.localEa off)]
  | .stol off => [.write (s.localEa off)]
  | .call _ | .push _ => [.write s.pushAddr]
  | .retn | .pop _ => [.read s.sp]
  | .pshi a => [.read (directEa a), .write s.pushAddr]
  | .popi a => [.read s.sp, .write (directEa a)]
  | .swap a => [.read (directEa a), .write (directEa a)]

/-- The address the instruction stores to, if it stores (R57). -/
def storeAddr (i : Instr) (s : State) : Option Int :=
  match i with
  | .stod a | .popi a | .swap a => some (directEa a)
  | .stol off => some (s.localEa off)
  | .call _ | .push _ | .pshi _ => some s.pushAddr
  | .lodd _ | .addd _ | .subd _ | .loco _ | .jump _ | .jpos _ | .jzer _ | .jneg _ | .jnze _
  | .insp _ | .desp _ | .lodl _ | .addl _ | .subl _ | .retn | .pop _ => none

/-- The instructions that pop the stack (spec/60_exceptions.md R233). -/
def pops : Instr → Bool
  | .retn | .pop _ | .popi _ => true
  | .lodd _ | .stod _ | .addd _ | .subd _ | .jpos _ | .jzer _ | .jump _ | .loco _ | .lodl _ | .stol _
  | .addl _ | .subl _ | .jneg _ | .jnze _ | .call _ | .pshi _ | .push _ | .swap _ | .insp _
  | .desp _ => false

/-! ### The port (R56) -/

/-- What the port is given: `addr`, `we`, `wdata`. -/
structure PortRequest where
  addr : Int
  we : Bool
  wdata : Int
  deriving DecidableEq, Repr

/-- What the port answers: `rdata`, present on a read inside memory only (log entry 29), and `oob`. -/
structure PortReply where
  rdata : Option Int
  oob : Bool
  deriving DecidableEq, Repr

/-- One transaction on the port. -/
def State.port (s : State) (q : PortRequest) : State × PortReply :=
  if InMemory q.addr then
    if q.we then (s.setWord q.addr q.wdata, { rdata := none, oob := false })
    else (s, { rdata := some (s.word q.addr), oob := false })
  else (s, { rdata := none, oob := true })

end Sys2Proof.Machine
end

