-- ==== Sys2Proof/Machine/Assembler.lean ====
section
/-! DEFINITION. The assembly text the loader accepts (spec/30_encoding.md R85 to R90). It is host-side:
the block never runs it. A text is a list of characters. -/

namespace Sys2Proof.Machine

abbrev Text := List Char

/-- The assembler's conditions (spec/60_exceptions.md R236); their codes are in R230. -/
inductive AsmError where
  | unknownInstruction
  | invalidOperand
  | malformedData
  deriving DecidableEq, Repr

def AsmError.code : AsmError → Nat
  | .unknownInstruction => 16
  | .invalidOperand => 17
  | .malformedData => 18

/-! ### Characters, tokens and lines -/

/-- White space (log entry 22). -/
def isSpace (c : Char) : Bool :=
  c == ' ' || c == '\t' || c == '\n' || c == '\r' || c == '\x0b' || c == '\x0c'

/-- A text cut at the characters `p` holds of; `cur` is the piece so far, last character first. -/
def cutAt (p : Char → Bool) (cur : Text) : Text → List Text
  | [] => [cur.reverse]
  | c :: rest => if p c then cur.reverse :: cutAt p [] rest else cutAt p (c :: cur) rest

/-- `split line on runs of whitespace, dropping empty tokens` (R85). -/
def tokens (line : Text) : List Text := (cutAt isSpace [] line).filter fun t => !t.isEmpty

/-- `text split on "\n"` (R87). -/
def splitLines (text : Text) : List Text := cutAt (· == '\n') [] text

/-- `trim(L)` (R87). -/
def trim (t : Text) : Text := ((t.dropWhile isSpace).reverse.dropWhile isSpace).reverse

/-- A line with nothing on it (spec/70_reset_and_hazards.md R262). -/
def isBlank (t : Text) : Bool := t.all isSpace

/-- `upper_case` (R85; log entry 22). -/
def upperCase (t : Text) : Text := t.map Char.toUpper

/-! ### Decimal integers (R86) -/

/-- One or more decimal digits. -/
def isDigits (t : Text) : Bool := !t.isEmpty && t.all Char.isDigit

def digitsValue (t : Text) : Nat := t.foldl (fun n c => 10 * n + (c.toNat - '0'.toNat)) 0

/-- `[+-]?[0-9]+` -/
def isDecimalInteger : Text → Bool
  | '+' :: t => isDigits t
  | '-' :: t => isDigits t
  | t => isDigits t

/-- The exact integer a decimal token spells. -/
def decimalValue : Text → Int
  | '+' :: t => digitsValue t
  | '-' :: t => -(digitsValue t : Int)
  | t => digitsValue t

/-! ### One line (R85) -/

structure Parsed where
  mnemonic : Mnemonic
  operand : Option Int
  deriving DecidableEq, Repr

def mnemonicNamed (t : Text) : Option Mnemonic := mnemonics.find? fun m => m.name.toList == t

/-- The operand of the tokens after the first; tokens after the second are ignored (R86). -/
def parseOperand : List Text → Except AsmError (Option Int)
  | [] => .ok none
  | t :: _ => if isDecimalInteger t then .ok (some (decimalValue t)) else .error .invalidOperand

/-- `parse(line)` (R85). A line with no token has no first token that matches (log entry 22). -/
def parse (line : Text) : Except AsmError Parsed :=
  match tokens line with
  | [] => .error .unknownInstruction
  | first :: rest =>
    match mnemonicNamed (upperCase first) with
    | none => .error .unknownInstruction
    | some mn => do
      let k ← parseOperand rest
      return { mnemonic := mn, operand := k }

/-- The word of a parsed line (R82). -/
def Parsed.word (p : Parsed) : InstrWord := encodeMnemonic p.mnemonic p.operand

/-! ### A program text (R87, R88) -/

structure Program where
  instructions : List Text
  /-- address and initial value, no address twice -/
  data : List (Int × Int)
  deriving DecidableEq, Repr

structure ParseResult where
  valid : Bool
  /-- by 1-based line number of the original text (D38) -/
  errors : List (Nat × AsmError)
  program : Option Program
  deriving DecidableEq, Repr

/-- `program.data[address] = value`: a later line for the same address wins (R88, D21). -/
def setData (a v : Int) : List (Int × Int) → List (Int × Int)
  | [] => [(a, v)]
  | (b, w) :: rest => if a = b then (a, v) :: rest else (b, w) :: setData a v rest

/-- A `.data` line: exactly two further tokens, both decimal integers (R88). "Further" is counted after the
first token, whatever follows `.data` in it: so `.dataX 5 1` is valid and `.data100 42` fails. The spec does
not say which it means, and this is the model's choice (DESIGN CHOICE, log entry 37). -/
def parseData (line : Text) : Except AsmError (Int × Int) :=
  match tokens line with
  | [_, a, v] =>
    if isDecimalInteger a && isDecimalInteger v then .ok (decimalValue a, decimalValue v)
    else .error .malformedData
  | _ => .error .malformedData

/-- A blank line or a comment: a whole line that starts with `#` (R87, D20). -/
def isSkipped (t : Text) : Bool := t.isEmpty || "#".toList.isPrefixOf t

/-- A `.data` line (R88). -/
def isDirective (t : Text) : Bool := ".data".toList.isPrefixOf t

/-- The lines from number `n` on: errors, instruction lines and data so far are kept and added to. -/
def parseLines (n : Nat) (errors : List (Nat × AsmError)) (instrs : List Text)
    (data : List (Int × Int)) : List Text → ParseResult
  | [] =>
    { valid := errors.isEmpty
      errors := errors
      program := if errors.isEmpty then some { instructions := instrs, data := data } else none }
  | line :: rest =>
    let t := trim line
    if isSkipped t then parseLines (n + 1) errors instrs data rest
    else if isDirective t then
      match parseData t with
      | .ok (a, v) => parseLines (n + 1) errors instrs (setData a v data) rest
      | .error e => parseLines (n + 1) (errors ++ [(n, e)]) instrs data rest
    else
      match parse t with
      | .ok _ => parseLines (n + 1) errors (instrs ++ [t]) data rest
      | .error e => parseLines (n + 1) (errors ++ [(n, e)]) instrs data rest

/-- `parseProgram(text)` (R87). -/
def parseProgram (text : Text) : ParseResult := parseLines 1 [] [] [] (splitLines text)

/-! ### The binary listing (R90) -/

/-- 16 characters, most significant bit first (D39). -/
def bitText (w : InstrWord) : Text :=
  (List.range 16).map fun i => if w.getMsbD i then '1' else '0'

/-- `programToBinary(program)` (R90). -/
def programToBinary (p : Program) : List Text :=
  p.instructions.map fun line =>
    match parse line with
    | .ok q => bitText q.word
    | .error _ => "ERROR".toList

end Sys2Proof.Machine
end

