-- ==== Sys2Proof/Machine/Loader.lean ====
section
/-! DEFINITION. Reset by the host and the engine's program load (spec/70_reset_and_hazards.md R260 to
R263, R266), and the host's accesses to memory (spec/20_memory.md R65). -/

namespace Sys2Proof.Machine

/-- The conditions of a load (spec/60_exceptions.md R236). -/
inductive LoadError where
  | codec (e : AsmError)
  | range
  deriving DecidableEq, Repr

/-- R230. -/
def LoadError.code : LoadError → Nat
  | .codec e => e.code
  | .range => 19

/-- `reset()` (R260): every piece of state at its reset value, unconditionally. The model's own count of
draws goes on, so that free values after a reset are fresh (log entry 3). -/
def State.resetByHost (s : State) : State := { State.reset with draws := s.draws }

/-- Idle, as `reset`, `loadProgram` and the end of `run` leave the engine (spec/10_state.md R33, R34). -/
def State.idle (s : State) : State := { s with running := false, mode := .idle }

/-- A program of `n` lines and its sentinel fit at `base`: `base + n + 1 <= 4096`, that is, the sentinel's
address is inside memory (R263, D22; log entry 26). -/
def fitsAt (base : Int) (n : Nat) : Bool := decide (0 ≤ base ∧ InMemory (base + n))

/-- The lines that are loaded (R262). -/
def codeLines (lines : List Text) : List Text := lines.filter fun t => !isBlank t

/-- Parses and encodes each line into consecutive words from `a`, then writes the sentinel (R262). A line
that fails ends the load there, with the words before it written (R266, D24). -/
def State.loadLines (s : State) (a : Int) : List Text → State × Option LoadError
  | [] => (s.setWord a Params.haltSentinel, none)
  | t :: rest =>
    match parse t with
    | .error e => (s, some (.codec e))
    | .ok p => State.loadLines (s.setWord a (wordValue p.word)) (a + 1) rest

/-- The engine's `loadProgram(lines, base)` (R262): registers keep their values. A program that does not
fit is refused before anything is written (R263). -/
def State.loadProgram (s : State) (lines : List Text) (base : Int := Params.loadBase) :
    State × Option LoadError :=
  let code := codeLines lines
  if fitsAt base code.length then s.idle.loadLines base code else (s, some .range)

/-! ### Host accesses (R65, D30) -/

/-- `peek(a)`: 0 outside memory. -/
def State.peek (s : State) (a : Int) : Int := if InMemory a then s.word a else 0

/-- `poke(a, v)`: refused outside memory. -/
def State.poke (s : State) (a v : Int) : Option State :=
  if InMemory a then some (s.setWord a v) else none

/-- `getMemoryDump(start, length)`: none of a length of 0 or less. -/
def State.memoryDump (s : State) (start length : Int) : List Int :=
  (List.range length.toNat).map fun (i : Nat) => s.peek (start + i)

end Sys2Proof.Machine
end

