-- ==== Sys2Proof/Machine/Run.lean ====
section
/-! DEFINITION. What the host sees of a step, the run loop (spec/70_reset_and_hazards.md R268 to R270),
the snapshot (spec/10_state.md R36), the result a call returns (R276) and the report
(spec/60_exceptions.md R253). -/

namespace Sys2Proof.Machine

/-- How a `step` or `run` call ended (spec/60_exceptions.md R230). -/
inductive Status where
  | ok
  | stopped (f : Fault)
  | maxCyclesExceeded (maxCycles : Int)
  | refused (r : Refusal)
  deriving DecidableEq, Repr

/-- The codes of R230; a refusal is the model's own and has none. -/
def Status.code : Status → Option Nat
  | .ok => some 0
  | .stopped f => some f.code
  | .maxCyclesExceeded _ => some 5
  | .refused _ => none

/-- What R237 records. -/
def Status.info : Status → List Int
  | .ok => []
  | .stopped f => f.info
  | .maxCyclesExceeded n => [n]
  | .refused _ => []

/-- The same condition with the engine Idle, as a finished `run` hands it to the host: no observation after a
run shows `running` (spec/10_state.md R33; log entry 21). -/
def Fault.idle (f : Fault) : Fault :=
  match f with
  | .endOfProgram s => .endOfProgram s.idle
  | .outOfBounds a s => .outOfBounds a s.idle
  | .stackUnderflow sp s => .stackUnderflow sp s.idle
  | .illegalInstruction pc w s => .illegalInstruction pc w s.idle

/-- The same status with the engine Idle. -/
def Status.idle (st : Status) : Status :=
  match st with
  | .ok => .ok
  | .stopped f => .stopped f.idle
  | .maxCyclesExceeded n => .maxCyclesExceeded n
  | .refused r => .refused r

/-- `step()` as a host call: the state after it, whatever its outcome (R239). -/
def State.stepCall (s : State) : State × Status :=
  match step s with
  | .next t => (t, .ok)
  | .fault f => (f.after, .stopped f)
  | .refused r => (s, .refused r)

/-- At most `n` steps of a `run(maxCycles)` (R268). -/
def State.runLoop (maxCycles : Int) (n : Nat) (s : State) : State × Status :=
  match n with
  | 0 => (s, .maxCyclesExceeded maxCycles)
  | n + 1 =>
    match s.stepCall with
    | (t, .ok) => State.runLoop maxCycles n t
    | (t, st) => (t, st)

/-- Running, for the duration of a `run` call (spec/10_state.md R33, R34; log entry 21). -/
def State.startRun (s : State) : State := { s with running := true, mode := .running }

/-- `run(maxCycles)` (R268); 0 or less steps not at all (D23). -/
def State.run (s : State) (maxCycles : Int := Params.maxCyclesDefault) : State × Status :=
  let (t, st) := s.startRun.runLoop maxCycles maxCycles.toNat
  (t.idle, st.idle)

/-! ### The snapshot (R36) -/

structure Snapshot where
  pc : Int
  ac : Int
  sp : Int
  ir : Int
  tir : Int
  mar : Int
  mbr : Int
  mem : Memory
  stack : List Int
  running : Bool
  cycleCount : Int
  aluTrace : AluTrace
  lastInstruction : Option Instr
  lastMicro : String
  busTrace : Option BusTrace
  deriving DecidableEq, Repr

/-- The words `M[SP] .. M[4094]` in address order, none when `SP ≥ 4095` (R36, D27); where SP is
negative, the words of that range that exist (log entry 25). -/
def State.stackView (s : State) : List Int :=
  let lo := max s.sp 0
  s.memoryDump lo (Params.stackBase - lo)

/-- `getState()` (R276): a value copy. -/
def State.snapshot (s : State) : Snapshot where
  pc := s.pc
  ac := s.ac
  sp := s.sp
  ir := s.ir
  tir := s.tir
  mar := s.mar
  mbr := s.mbr
  mem := s.mem
  stack := s.stackView
  running := s.running
  cycleCount := s.cycleCount
  aluTrace := s.aluTrace
  lastInstruction := s.lastInstruction
  lastMicro := s.lastMicro
  busTrace := s.busTrace

/-! ### Results -/

/-- `{success, state, error?}` (R276), with the condition's code (R230) and what it records (R237). The state is
the snapshot alone. -/
structure ExecutionResult where
  success : Bool
  state : Snapshot
  code : Option Nat
  info : List Int
  error : Option String
  deriving DecidableEq, Repr

/-- `Ok` succeeds; `EndOfProgram` as `HOST_EOP_SUCCESS` says (R269, D37); every other condition fails. -/
def Status.success : Status → Bool
  | .ok => true
  | .stopped (.endOfProgram _) => Config.hostEopSuccess
  | .stopped (.outOfBounds _ _) => false
  | .stopped (.stackUnderflow _ _) => false
  | .stopped (.illegalInstruction _ _ _) => false
  | .maxCyclesExceeded _ => false
  | .refused _ => false

/-- The result of a call that ended in state `s` with status `st`; the message is free (log entry 23). -/
def executionResult (s : State) (st : Status) : ExecutionResult where
  success := st.success
  state := s.snapshot
  code := st.code
  info := st.info
  error :=
    match st.success, st.code with
    | true, _ => none
    | false, some c => some (Config.freeMessage c s.draws)
    | false, none => none

/-! ### The state report (spec/60_exceptions.md R253) -/

/-- IR as 4 hexadecimal digits, most significant first, or the free text of an IR that is no 16-bit word
(log entry 24). -/
inductive IrText where
  | digits (d3 d2 d1 d0 : Nat)
  | other (text : String)
  deriving DecidableEq, Repr

def irText (ir : Int) : IrText :=
  if 0 ≤ ir ∧ ir ≤ 0xFFFF then
    let n := ir.toNat
    .digits (n / 4096 % 16) (n / 256 % 16) (n / 16 % 16) (n % 16)
  else .other (Config.freeIrText ir)

/-- What `getStateReport()` prints; its layout is unspecified. -/
structure StateReport where
  cycleCount : Int
  running : Bool
  pc : Int
  ac : Int
  sp : Int
  ir : IrText
  lastInstruction : Option Instr
  deriving DecidableEq, Repr

def State.report (s : State) : StateReport where
  cycleCount := s.cycleCount
  running := s.running
  pc := s.pc
  ac := s.ac
  sp := s.sp
  ir := irText s.ir
  lastInstruction := s.lastInstruction

end Sys2Proof.Machine
end

