-- ==== Sys2Proof/Machine/Debugger.lean ====
section
/-! DEFINITION. The host-side debug controller (spec/60_exceptions.md R248 to R252) and the controller's
`loadProgram` (spec/70_reset_and_hazards.md R264). It is software around the block, not part of it
(spec/00_scope.md R3): it owns one engine. -/

namespace Sys2Proof.Machine

structure Breakpoint where
  line : Int
  enabled : Bool
  deriving DecidableEq, Repr

/-- R248. -/
structure DebugInfo where
  currentLine : Int
  breakpoints : List Breakpoint
  /-- Nothing writes it but a load or a reset: the spec names no other writer, and none is the model's choice
  (DESIGN CHOICE, log entry 36). -/
  stepMode : Bool
  deriving DecidableEq, Repr

/-- R248, D29. -/
def DebugInfo.initial : DebugInfo where
  currentLine := 0
  breakpoints := []
  stepMode := false

/-- One engine with its debug information; `programLines` is stored and never read (R248; 93 I14). -/
structure Controller where
  engine : State
  debugInfo : DebugInfo
  programLines : List Text
  deriving DecidableEq, Repr

/-- A new controller: the engine is created reset (R260). The spec gives `programLines` no value before a load:
empty is the model's choice (DESIGN CHOICE, log entry 35). -/
def Controller.fresh : Controller where
  engine := State.reset
  debugInfo := DebugInfo.initial
  programLines := []

/-- The controller's `reset` also replaces DebugInfo (R260, R248). That it keeps `programLines`, of which the
spec says nothing here, is the model's choice (DESIGN CHOICE, log entry 35). -/
def Controller.reset (c : Controller) : Controller :=
  { c with engine := c.engine.resetByHost, debugInfo := DebugInfo.initial }

/-- Writes each `.data` word, after the code and the sentinel (R264, R265). -/
def State.writeData (s : State) : List (Int × Int) → State
  | [] => s
  | (a, v) :: rest => State.writeData (s.setWord a v) rest

/-- Code, sentinel and every `.data` address fit in memory (R263). -/
def Program.fits (p : Program) : Bool :=
  fitsAt Params.loadBase (codeLines p.instructions).length && p.data.all fun d => decide (InMemory d.1)

/-- `loadProgram(program)` (R264). After a range error or a codec failure DebugInfo is not reset (R264,
R266). -/
def Controller.loadProgram (c : Controller) (p : Program) : Controller × Option LoadError :=
  let c := { c with engine := c.engine.resetByHost, programLines := p.instructions }
  if p.fits then
    match c.engine.loadProgram p.instructions with
    | (e, some err) => ({ c with engine := e }, some err)
    | (e, none) => ({ c with engine := e.writeData p.data, debugInfo := DebugInfo.initial }, none)
  else (c, some .range)

/-- Controller `step()`: on success it counts one more line (R249). -/
def Controller.step (c : Controller) : Controller × Status :=
  let (e, st) := c.engine.stepCall
  let line := if st = .ok then c.debugInfo.currentLine + 1 else c.debugInfo.currentLine
  ({ c with engine := e, debugInfo := { c.debugInfo with currentLine := line } }, st)

/-- Controller `run()`: `currentLine` does not change (R249, D29). -/
def Controller.run (c : Controller) (maxCycles : Int := Params.maxCyclesDefault) :
    Controller × Status :=
  let (e, st) := c.engine.run maxCycles
  ({ c with engine := e }, st)

/-- Some enabled breakpoint stands at the current line (R250). -/
def DebugInfo.hit (d : DebugInfo) : Bool :=
  d.breakpoints.any fun b => b.enabled && b.line == d.currentLine

/-- The memory cell at PC holds the halt sentinel (R250; log entry 27). -/
def State.sentinelAtPc (s : State) : Bool :=
  decide (InMemory s.pc) && s.word s.pc == Params.haltSentinel

/-- The first `n` rounds of `continue()` (R250, D29): `none` where it has not stopped by then. It has no
cycle guard of its own; `n` bounds the model's computation only (log entry 27). -/
def Controller.continueFor (c : Controller) (n : Nat) : Option (Controller × Status) :=
  match n with
  | 0 => none
  | n + 1 =>
    let (d, st) := c.step
    if st ≠ .ok || d.debugInfo.hit || d.engine.sentinelAtPc then some (d, st)
    else Controller.continueFor d n

/-- `execute(stepMode)` (R252). Whether it records its argument in `DebugInfo.stepMode` the spec does not say:
that it does not is the model's choice (DESIGN CHOICE, log entry 36). -/
def Controller.execute (c : Controller) (stepMode : Bool) : Controller × Status :=
  if stepMode then c.step else c.run

/-! ### Breakpoints (R251) -/

/-- `setBreakpoint(line)`: re-enables an existing entry, or adds one. That a new entry goes last, of which the
spec says nothing, is the model's choice (DESIGN CHOICE, log entry 38). -/
def setBreakpoint (line : Int) : List Breakpoint → List Breakpoint
  | [] => [{ line := line, enabled := true }]
  | b :: rest =>
    if b.line = line then { b with enabled := true } :: rest else b :: setBreakpoint line rest

/-- `removeBreakpoint(line)`. -/
def removeBreakpoint (line : Int) (bs : List Breakpoint) : List Breakpoint :=
  bs.filter fun b => b.line != line

/-- `toggleBreakpoint(line)`: flips an existing entry, or adds one enabled (D29), last in the list (DESIGN
CHOICE, log entry 38). -/
def toggleBreakpoint (line : Int) : List Breakpoint → List Breakpoint
  | [] => [{ line := line, enabled := true }]
  | b :: rest =>
    if b.line = line then { b with enabled := !b.enabled } :: rest
    else b :: toggleBreakpoint line rest

/-- The controller with its breakpoints changed. -/
def Controller.editBreakpoints (c : Controller) (f : List Breakpoint → List Breakpoint) : Controller :=
  { c with debugInfo := { c.debugInfo with breakpoints := f c.debugInfo.breakpoints } }

end Sys2Proof.Machine
end

