-- ==== Sys2Proof/Machine/HostInterface.lean ====
section
/-! DEFINITION. The operations through which alone the host acts on the block, and those of the debugInfo
controller around it (spec/70_reset_and_hazards.md R276; spec/60_exceptions.md R248 to R253). They act
between steps (R277; log entry 30). -/

namespace Sys2Proof.Machine

inductive HostOp where
  | reset
  | loadProgram (p : Program)
  | step
  | run (maxCycles : Int)
  | getState
  | peek (a : Int)
  | poke (a v : Int)
  | getMemoryDump (start length : Int)
  | getStateReport
  | debugStep
  /-- `continue()`, of which the model computes the first `rounds` rounds -/
  | debugContinue (rounds : Nat)
  | execute (stepMode : Bool)
  | setBreakpoint (line : Int)
  | removeBreakpoint (line : Int)
  | toggleBreakpoint (line : Int)
  deriving DecidableEq, Repr

inductive HostReply where
  | nothing
  | loaded (error : Option LoadError)
  | executed (r : ExecutionResult)
  | snapshot (s : Snapshot)
  | words (ws : List Int)
  | report (r : StateReport)
  /-- `poke` outside memory (R65) -/
  | refused
  /-- `continue` has not returned within the rounds computed -/
  | notYet
  deriving DecidableEq, Repr

/-- A finished `step` or `run` call. -/
def executedReply (r : Controller × Status) : Controller × HostReply :=
  (r.1, .executed (executionResult r.1.engine r.2))

/-- The engine's own `step()` and `run()` leave DebugInfo alone (R276). -/
def Controller.onEngine (c : Controller) (r : State × Status) : Controller × HostReply :=
  executedReply ({ c with engine := r.1 }, r.2)

/-- One host operation (R276). -/
def hostAct (op : HostOp) (c : Controller) : Controller × HostReply :=
  match op with
  | .reset => (c.reset, .nothing)
  | .loadProgram p =>
    let (d, err) := c.loadProgram p
    (d, .loaded err)
  | .step => c.onEngine c.engine.stepCall
  | .run n => c.onEngine (c.engine.run n)
  | .getState => (c, .snapshot c.engine.snapshot)
  | .peek a => (c, .words [c.engine.peek a])
  | .poke a v =>
    match c.engine.poke a v with
    | some e => ({ c with engine := e }, .nothing)
    | none => (c, .refused)
  | .getMemoryDump start length => (c, .words (c.engine.memoryDump start length))
  | .getStateReport => (c, .report c.engine.report)
  | .debugStep => executedReply c.step
  | .debugContinue rounds =>
    match c.continueFor rounds with
    | some r => executedReply r
    | none => (c, .notYet)
  | .execute stepMode => executedReply (c.execute stepMode)
  | .setBreakpoint line => (c.editBreakpoints (Machine.setBreakpoint line), .nothing)
  | .removeBreakpoint line => (c.editBreakpoints (Machine.removeBreakpoint line), .nothing)
  | .toggleBreakpoint line => (c.editBreakpoints (Machine.toggleBreakpoint line), .nothing)

end Sys2Proof.Machine
end

