-- ==== Sys2Proof/Safety.lean ====
section
/-! DEFINITION. The terms in which claims speak of a run: the invariant every step keeps, agreement of
two states on all that the spec specifies, and what a fault leaves. -/

namespace Sys2Proof.Machine

/-- The entries carry the cycle numbers `n + 1`, `n + 2`, … (spec/40_datapath.md R124). -/
def numberedFrom (n : Int) : List HistoryEntry → Bool
  | [] => true
  | e :: rest => decide (e.cycle = n + 1) && numberedFrom (n + 1) rest

/-- The last instruction and the last traces are those of the newest history entry, and none before the
first (R123, R124; spec/10_state.md R37). -/
def State.tracesMatch (s : State) : Bool :=
  match s.history.getLast? with
  | none => s.lastInstruction.isNone && s.lastMicro == "" && s.busTrace.isNone
  | some e => s.lastInstruction.isSome && s.lastMicro == e.micro && s.busTrace == some e.bus

/-- What every step keeps: memory in its canonical form, a history that numbers the executed instructions
from 1 and is as long as `cycleCount` says, traces that match it, and a last instruction whose operand
fits its field. -/
def State.Inv (s : State) : Prop :=
  s.mem.wf = true ∧ numberedFrom 0 s.history = true ∧ s.cycleCount = (s.history.length : Int) ∧
    s.tracesMatch = true ∧ s.lastInstruction.all Instr.wf = true

/-- The engine is Idle and not running, as between calls (spec/10_state.md R33, R34). -/
def State.IsIdle (s : State) : Prop := s.running = false ∧ s.mode = .idle

/-- Two states agree on everything but what the spec leaves unspecified: TIR, MAR, MBR and the contents
of the traces (spec/70_reset_and_hazards.md R271), and the model's own count of draws. -/
def State.Agree (s t : State) : Prop :=
  s.pc = t.pc ∧ s.ac = t.ac ∧ s.sp = t.sp ∧ s.ir = t.ir ∧ s.mem = t.mem ∧
    s.cycleCount = t.cycleCount ∧ s.running = t.running ∧ s.mode = t.mode ∧
    s.lastInstruction = t.lastInstruction ∧
    s.history.map HistoryEntry.cycle = t.history.map HistoryEntry.cycle

/-- Two step outcomes agree: the same kind of outcome, the same condition with the same recorded
information, and states that agree (R271). -/
def Outcome.Agree (o p : Outcome) : Prop :=
  match o, p with
  | .next s, .next t => s.Agree t
  | .fault f, .fault g => f.code = g.code ∧ f.info = g.info ∧ f.after.Agree g.after
  | .refused q, .refused r => q = r
  | _, _ => False

/-- `t` is `s` but for IR, which a fetch writes, and for TIR, MAR, MBR and the count of draws: all that a
step that ends in a fault or a halt may change (spec/40_datapath.md R122; log entry 4). -/
def State.OnlyFetched (s t : State) : Prop :=
  t = { s with ir := t.ir, tir := t.tir, mar := t.mar, mbr := t.mbr, draws := t.draws }

/-- `t`'s memory is `s`'s but for the word at `a`, which is `v`, and it has the canonical form. -/
def State.StoresOnly (s t : State) (a v : Int) : Prop :=
  t.mem.wf = true ∧ t.word a = v ∧ ∀ b, InMemory b → b ≠ a → t.word b = s.word b

/-- Every register and memory word of `t` is that of `s` but PC, AC, SP and memory, which stand as
written; only the ALU trace may differ besides (the frame of `exec`). -/
def State.Changes (s t : State) (pc ac sp : Int) (mem : Memory) : Prop :=
  t = { s with pc := pc, ac := ac, sp := sp, mem := mem, aluTrace := t.aluTrace }

/-- Instructions executed one after the other, without fetches between them. -/
def execAll (is : List Instr) (s : State) : Outcome :=
  match is with
  | [] => .next s
  | i :: rest =>
    match exec i s with
    | .next t => execAll rest t
    | .fault f => .fault f
    | .refused r => .refused r

/-- `k` steps from `s`, each `Ok`, end in `t`. -/
def State.OkSteps (k : Nat) (s t : State) : Prop :=
  match k with
  | 0 => t = s
  | n + 1 => ∃ u, step s = .next u ∧ State.OkSteps n u t

/-- `decode(w) == {mn, k}` (spec/30_encoding.md R84). -/
def DecodesTo (w : InstrWord) (mn : Mnemonic) (k : Option Int) : Prop :=
  ∃ i, decode (wordValue w) = .instr i ∧ i.mnemonic = mn ∧ i.operand = k

end Sys2Proof.Machine
end

