-- ==== Sys2Proof/Certificates/Slice0/Obligations.lean ====
section
/-! DEFINITION. The statements for the provers. An instruction's result is an equation: `exec` answers the
next state the rules give, with every field the rules do not name unchanged (`State.Changes`, or a record
update written out); the ALU trace is named apart, since its contents are largely unspecified (R123). -/

open Sys2Proof Sys2Proof.Machine

/-! ## Encoding -/

/-- spec/30_encoding.md R76, R82, R84. The decoder gives back every well-formed instruction, every operand
at every value its field admits. -/
def Obligations.DecodeOfEncode : Prop :=
  ∀ i : Instr, i.wf = true → decode (wordValue (encode i)) = .instr i

/-- spec/30_encoding.md R84, whole. The operand comes back for an unsigned field and for LOCO in
−2048..2047; LOCO in 2048..4095 gives `k − 4096`; RETN has none; LODD 0 is the word 0, which decodes to
LODD 0 and at which a step halts. -/
def Obligations.RoundTripOfMnemonics : Prop :=
  (∀ (b : BasicOp) (k : Int), b ≠ .loco → 0 ≤ k → k ≤ 4095 →
      DecodesTo (encodeMnemonic (.basic b) (some k)) (.basic b) (some k)) ∧
  (∀ k : Int, -2048 ≤ k → k ≤ 2047 →
      DecodesTo (encodeMnemonic (.basic .loco) (some k)) (.basic .loco) (some k)) ∧
  (∀ k : Int, 2048 ≤ k → k ≤ 4095 →
      DecodesTo (encodeMnemonic (.basic .loco) (some k)) (.basic .loco) (some (k - 4096))) ∧
  (∀ (e : ExtOp) (k : Int), e ≠ .retn → 0 ≤ k → k ≤ 255 →
      DecodesTo (encodeMnemonic (.ext e) (some k)) (.ext e) (some k)) ∧
  (∀ k : Option Int, DecodesTo (encodeMnemonic (.ext .retn) k) (.ext .retn) none) ∧
  encodeMnemonic (.basic .lodd) (some 0) = 0x0000 ∧
  decode 0 = .instr (.lodd 0) ∧
  (∀ s : State, InMemory s.pc → s.word s.pc = 0 → ∃ t, step s = .fault (.endOfProgram t))

/-- spec/30_encoding.md R82, R83 (with decision D32 for a negative operand). The word's value is the code
above the operand reduced modulo the field size; an absent operand counts as 0; RETN is always 0xF400. -/
def Obligations.EncoderReducesOperands : Prop :=
  (∀ (b : BasicOp) (k : Int),
    wordValue (encodeMnemonic (.basic b) (some k)) = (basicCode b).toNat * 4096 + k % 4096) ∧
  (∀ (e : ExtOp) (k : Int), e ≠ .retn →
    wordValue (encodeMnemonic (.ext e) (some k)) = 0xF000 + (extCode e).toNat * 256 + k % 256) ∧
  (∀ k : Option Int, encodeMnemonic (.ext .retn) k = 0xF400) ∧
  (∀ mn : Mnemonic, encodeMnemonic mn none = encodeMnemonic mn (some 0))

/-- spec/30_encoding.md R76, R78, R83. Whatever instruction the decoder returns is well-formed, and its
encoding is the word it came from, but for the ignored bits 7:0 of a RETN word. -/
def Obligations.EncodeOfDecode : Prop :=
  ∀ (w : Int) (i : Instr), decode w = .instr i →
    i.wf = true ∧ (i ≠ .retn → wordValue (encode i) = w) ∧ (i = .retn → w / 256 = 0xF4)

/-- spec/30_encoding.md R76, whole: nothing is scaled or shifted. -/
def Obligations.OperandAssembly : Prop :=
  ∀ (w : Int) (i : Instr), 0 ≤ w → w ≤ 0xFFFF → decode w = .instr i →
    i.operand =
      match i.mnemonic with
      | .basic .loco => some (if w % 4096 ≥ 2048 then w % 4096 - 4096 else w % 4096)
      | .basic _ => some (w % 4096)
      | .ext .retn => none
      | .ext _ => some (w % 256)

/-- spec/30_encoding.md R79 and R80 (decisions D4 and D10, log entries 8 and 12). Exactly the words
0xF600 to 0xFBFF, 0xFD00 to 0xFDFF and 0xFF00 to 0xFFFF decode to UNDEF, with their sub-code and low
byte; exactly the integers outside 0..0xFFFF decode to ILLEGAL. -/
def Obligations.UnassignedWords : Prop :=
  (∀ w : Int, (∃ sub y, decode w = .undef sub y) ↔
      (0xF600 ≤ w ∧ w ≤ 0xFBFF) ∨ (0xFD00 ≤ w ∧ w ≤ 0xFDFF) ∨ (0xFF00 ≤ w ∧ w ≤ 0xFFFF)) ∧
  (∀ (w : Int) (sub : BitVec 4) (y : BitVec 8), decode w = .undef sub y →
      w = 0xF000 + sub.toNat * 256 + y.toNat) ∧
  (∀ w v : Int, decode w = .illegal v ↔ (w < 0 ∨ 0xFFFF < w) ∧ v = w)

/-- spec/30_encoding.md R71 to R73 (opcode numbers: D3, D4, log entry 8). Bits 15:12 alone tell the
format, and each code below 0xF is a basic opcode. -/
def Obligations.FormatByTopBits : Prop :=
  ∀ w : Int, 0 ≤ w → w ≤ 0xFFFF →
    ((∃ i b, decode w = .instr i ∧ i.mnemonic = .basic b) ↔ w / 4096 ≠ 0xF)

/-- spec/95_test_vectors.md part 2.1; spec/30_encoding.md R70 to R73, R76: words written out from the encodings
decode to what they stand for. The opcode numbers are decisions D3 and D4 (PRESUMED, log entry 8); that the
last two words decode to UNDEF and ILLEGAL is D9 and D10 (log entries 13 and 12). -/
def Obligations.SampleWordsDecode : Prop :=
  decode 0b0000000001100100 = .instr (.lodd 100) ∧
  decode 0b0111100000000000 = .instr (.loco (-2048)) ∧
  decode 0b1001000000000010 = .instr (.stol 2) ∧
  decode 0b1110000000010100 = .instr (.call 20) ∧
  decode 0b1111010011111111 = .instr .retn ∧
  decode 0b1111111000000011 = .instr (.desp 3) ∧
  decode 0b1111110100010010 = .undef 0xD 0x12 ∧
  decode 70000 = .illegal 70000

/-! ## Reset -/

/-- spec/10_state.md R37 (memory: D12; counter and traces: D13); spec/70_reset_and_hazards.md R261. -/
def Obligations.ResetValues : Prop :=
  State.reset.pc = 0 ∧ State.reset.ac = 0 ∧ State.reset.sp = 4095 ∧ State.reset.ir = 0 ∧
  State.reset.tir = 0 ∧ State.reset.mar = 0 ∧ State.reset.mbr = 0 ∧
  (∀ a, InMemory a → State.reset.word a = 0) ∧
  State.reset.cycleCount = 0 ∧ State.reset.running = false ∧ State.reset.mode = .idle ∧
  State.reset.aluTrace = { operation := none, inputA := 0, inputB := 0, result := 0 } ∧
  State.reset.lastInstruction = none ∧ State.reset.lastMicro = "" ∧ State.reset.busTrace = none ∧
  State.reset.history = [] ∧ (∃ t, step State.reset = .fault (.endOfProgram t) ∧ t.ir = 0)

/-- The invariant `State.Inv` holds after reset. That the counter, the traces and the last instruction start
empty is decision D13 (log entry 31); that the history is numbered as `Inv` says is D28 (log entry 32). -/
def Obligations.ResetMeetsInvariant : Prop := State.reset.Inv

/-! ## What each instruction does -/

/-- spec/41_direct.md R140, R141, R143, R144; spec/40_datapath.md R115 (exact integers: D2, log entry 9).
LODD, ADDD and SUBD complete on every state and every address, write AC and PC + 1, and nothing else but
the ALU trace. -/
def Obligations.DirectLoadAddSubtract : Prop :=
  ∀ (s : State) (a : Nat), a ≤ 4095 →
    (∃ t, exec (.lodd a) s = .next t ∧ s.Changes t (s.pc + 1) (s.word a) s.sp s.mem) ∧
    (∃ t, exec (.addd a) s = .next t ∧ s.Changes t (s.pc + 1) (s.ac + s.word a) s.sp s.mem) ∧
    (∃ t, exec (.subd a) s = .next t ∧ s.Changes t (s.pc + 1) (s.ac - s.word a) s.sp s.mem)

/-- spec/41_direct.md R140, R142; spec/20_memory.md R55 (words are not truncated: D2). STOD completes on
every state and every address: the word at the address becomes AC, every other word stays, PC advances,
and nothing else changes but the ALU trace. -/
def Obligations.StodStoresAc : Prop :=
  ∀ (s : State) (a : Nat), s.mem.wf = true → a ≤ 4095 →
    ∃ t, exec (.stod a) s = .next t ∧ s.Changes t (s.pc + 1) s.ac s.sp t.mem ∧
      s.StoresOnly t (directEa a) s.ac

/-- spec/41_direct.md R145. LOCO completes on every state and immediate. -/
def Obligations.LocoLoadsConstant : Prop :=
  ∀ (s : State) (k : Int), -2048 ≤ k → k ≤ 2047 →
    ∃ t, exec (.loco k) s = .next t ∧ s.Changes t (s.pc + 1) k s.sp s.mem

/-- spec/42_local.md R160, R161, R163, R164; spec/40_datapath.md R121. LODL, ADDL and SUBL complete where
SP + off is inside memory, and write AC and PC + 1 only. -/
def Obligations.LocalLoadAddSubtract : Prop :=
  ∀ (s : State) (off : Nat), off ≤ 4095 → InMemory (s.sp + off) →
    (∃ t, exec (.lodl off) s = .next t ∧
      s.Changes t (s.pc + 1) (s.word (s.sp + off)) s.sp s.mem) ∧
    (∃ t, exec (.addl off) s = .next t ∧
      s.Changes t (s.pc + 1) (s.ac + s.word (s.sp + off)) s.sp s.mem) ∧
    (∃ t, exec (.subl off) s = .next t ∧
      s.Changes t (s.pc + 1) (s.ac - s.word (s.sp + off)) s.sp s.mem)

/-- spec/42_local.md R160, R162. STOL completes where SP + off is inside memory. -/
def Obligations.StolStoresAc : Prop :=
  ∀ (s : State) (off : Nat), s.mem.wf = true → off ≤ 4095 → InMemory (s.localEa off) →
    ∃ t, exec (.stol off) s = .next t ∧ s.Changes t (s.pc + 1) s.ac s.sp t.mem ∧
      s.StoresOnly t (s.localEa off) s.ac

/-- spec/42_local.md R160 (a fault outside memory: D7, log entry 14). Outside memory each of the four
raises `OutOfBounds(SP + off)` and changes nothing. -/
def Obligations.LocalAccessOutsideMemory : Prop :=
  ∀ (s : State) (off : Nat), ¬ InMemory (s.sp + off) →
    ∀ i ∈ [Instr.lodl off, .stol off, .addl off, .subl off],
      exec i s = .fault (.outOfBounds (s.sp + off) s)

/-- spec/43_control.md R180, R181; spec/40_datapath.md R113. JUMP completes on every state and target. -/
def Obligations.JumpGoesToTarget : Prop :=
  ∀ (s : State) (a : Nat), a ≤ 4095 →
    ∃ t, exec (.jump a) s = .next t ∧ s.Changes t a s.ac s.sp s.mem

/-- spec/43_control.md R182 to R185; spec/40_datapath.md R113, R117 (JPOS at AC = 0: D6, log entry 10).
Each conditional jump completes on every state and target; the test is on the exact integer. -/
def Obligations.ConditionalJumps : Prop :=
  ∀ (s : State) (a : Nat), a ≤ 4095 →
    (∃ t, exec (.jpos a) s = .next t ∧
      s.Changes t (if 0 ≤ s.ac then a else s.pc + 1) s.ac s.sp s.mem) ∧
    (∃ t, exec (.jzer a) s = .next t ∧
      s.Changes t (if s.ac = 0 then a else s.pc + 1) s.ac s.sp s.mem) ∧
    (∃ t, exec (.jneg a) s = .next t ∧
      s.Changes t (if s.ac < 0 then a else s.pc + 1) s.ac s.sp s.mem) ∧
    (∃ t, exec (.jnze a) s = .next t ∧
      s.Changes t (if s.ac ≠ 0 then a else s.pc + 1) s.ac s.sp s.mem)

/-- spec/43_control.md R186; spec/40_datapath.md R118 (the pushed word: D5, log entry 11). CALL completes
where the word below SP is inside memory: it holds PC + 1 after, SP addresses it, and PC is the target. -/
def Obligations.CallPushesReturnAddress : Prop :=
  ∀ (s : State) (a : Nat), s.mem.wf = true → a ≤ 4095 → InMemory s.pushAddr →
    ∃ t, exec (.call a) s = .next t ∧ s.Changes t a s.ac (s.sp - 1) t.mem ∧
      s.StoresOnly t s.pushAddr (s.pc + 1)

/-- spec/43_control.md R187; spec/40_datapath.md R119. RETN completes on a live stack: PC is the popped
word, whatever it is. -/
def Obligations.RetnPopsTarget : Prop :=
  ∀ s : State, 0 ≤ s.sp → s.sp < 4095 →
    ∃ t, exec .retn s = .next t ∧ s.Changes t (s.word s.sp) s.ac (s.sp + 1) s.mem

/-- spec/44_extended.md R200, R201, R203; spec/40_datapath.md R118. PSHI and PUSH complete where the word
below SP is inside memory: it holds the word at the address, or the immediate. -/
def Obligations.PushesStoreBelowSp : Prop :=
  ∀ (s : State) (y : Nat), s.mem.wf = true → y ≤ 255 → InMemory s.pushAddr →
    (∃ t, exec (.pshi y) s = .next t ∧ s.Changes t (s.pc + 1) s.ac (s.sp - 1) t.mem ∧
      s.StoresOnly t s.pushAddr (s.word y)) ∧
    (∃ t, exec (.push y) s = .next t ∧ s.Changes t (s.pc + 1) s.ac (s.sp - 1) t.mem ∧
      s.StoresOnly t s.pushAddr y)

/-- spec/40_datapath.md R118 (D7, D33, log entry 14). CALL, PSHI and PUSH raise `OutOfBounds(SP − 1)` and
change nothing where the word below SP is outside memory. -/
def Obligations.PushOutsideMemory : Prop :=
  ∀ (s : State) (x : Nat), ¬ InMemory (s.sp - 1) →
    exec (.call x) s = .fault (.outOfBounds (s.sp - 1) s) ∧
    exec (.push x) s = .fault (.outOfBounds (s.sp - 1) s) ∧
    (x ≤ 255 → exec (.pshi x) s = .fault (.outOfBounds (s.sp - 1) s))

/-- spec/44_extended.md R202, R204. POPI and POP complete on a live stack, POP whatever its operand. -/
def Obligations.PopsTakeTopOfStack : Prop :=
  ∀ (s : State) (y : Nat), y ≤ 255 → 0 ≤ s.sp → s.sp < 4095 →
    (s.mem.wf = true →
      ∃ t, exec (.popi y) s = .next t ∧ s.Changes t (s.pc + 1) s.ac (s.sp + 1) t.mem ∧
        s.StoresOnly t (directEa y) (s.word s.sp)) ∧
    (∃ t, exec (.pop y) s = .next t ∧ s.Changes t (s.pc + 1) (s.word s.sp) (s.sp + 1) s.mem)

/-- spec/40_datapath.md R119, whole, through the three instructions that pop: the underflow check comes
first, then the check of a negative SP; else the popped word is M[SP], SP is raised by one, and the pop
itself writes no memory. -/
def Obligations.PopRule : Prop :=
  ∀ (s : State) (y : Nat), y ≤ 255 →
    (4095 ≤ s.sp →
      ∀ i ∈ [Instr.retn, .pop y, .popi y], exec i s = .fault (.stackUnderflow s.sp s)) ∧
    (s.sp < 0 →
      ∀ i ∈ [Instr.retn, .pop y, .popi y], exec i s = .fault (.outOfBounds s.sp s)) ∧
    (0 ≤ s.sp → s.sp < 4095 →
      (∃ t, exec .retn s = .next t ∧ t.pc = s.word s.sp ∧ t.sp = s.sp + 1 ∧ t.mem = s.mem) ∧
      (∃ t, exec (.pop y) s = .next t ∧ t.ac = s.word s.sp ∧ t.sp = s.sp + 1 ∧ t.mem = s.mem) ∧
      (∃ t, exec (.popi y) s = .next t ∧ t.sp = s.sp + 1 ∧
        (s.mem.wf = true → t.word y = s.word s.sp) ∧
        ∀ b, InMemory b → b ≠ directEa y → t.word b = s.word b))

/-- spec/44_extended.md R200, R205. SWAP completes on every state and address: AC and the word exchange,
SP is not involved. -/
def Obligations.SwapExchanges : Prop :=
  ∀ (s : State) (a : Nat), s.mem.wf = true → a ≤ 255 →
    ∃ t, exec (.swap a) s = .next t ∧ s.Changes t (s.pc + 1) (s.word a) s.sp t.mem ∧
      s.StoresOnly t (directEa a) s.ac

/-- spec/40_datapath.md R120, whole. INSP and DESP complete on every state and count: SP moves, unchecked,
and memory is not touched. -/
def Obligations.StackPointerAdjustment : Prop :=
  ∀ (s : State) (n : Nat), n ≤ 255 →
    (∃ t, exec (.insp n) s = .next t ∧ s.Changes t (s.pc + 1) s.ac (s.sp - n) s.mem) ∧
    (∃ t, exec (.desp n) s = .next t ∧ s.Changes t (s.pc + 1) s.ac (s.sp + n) s.mem)

/-- spec/40_datapath.md R115, R123. What an instruction that uses the ALU records as inputs and result is
what the ALU was given and gave: THE MODEL'S READING (DEDUCED, log entry 6) of "the inputs recorded for
instructions that do not use the ALU are unspecified". -/
def Obligations.AluTraceOfAluInstructions : Prop :=
  ∀ (s t : State) (x : Nat) (k : Int),
    (exec (.addd x) s = .next t → t.aluTrace.inputA = s.ac ∧ t.aluTrace.inputB = s.word x ∧
      t.aluTrace.result = t.ac) ∧
    (exec (.subd x) s = .next t → t.aluTrace.inputA = s.ac ∧ t.aluTrace.inputB = s.word x ∧
      t.aluTrace.result = t.ac) ∧
    (exec (.addl x) s = .next t → t.aluTrace.inputA = s.ac ∧
      t.aluTrace.inputB = s.word (s.sp + x) ∧ t.aluTrace.result = t.ac) ∧
    (exec (.subl x) s = .next t → t.aluTrace.inputA = s.ac ∧
      t.aluTrace.inputB = s.word (s.sp + x) ∧ t.aluTrace.result = t.ac) ∧
    (∀ i ∈ [Instr.lodd x, .lodl x, .loco k, .pop x, .swap x], exec i s = .next t →
      t.aluTrace.inputB = t.ac ∧ t.aluTrace.result = t.ac)

/-! ## Rules over all instructions -/

/-- spec/20_memory.md R57, R58. Whatever instruction completes, every word but the one at the address it
stores to reads as before; an instruction that stores nothing changes no word. -/
def Obligations.MemoryFrame : Prop :=
  ∀ (i : Instr) (s t : State), exec i s = .next t →
    (∀ b, InMemory b → storeAddr i s ≠ some b → t.word b = s.word b) ∧
    (storeAddr i s = none → t.mem = s.mem)

/-- spec/10_state.md R21 to R24, R29, R32, R35. Whatever instruction completes: AC changes only by LODD,
ADDD, SUBD, LOCO, LODL, ADDL, SUBL, POP and SWAP; SP only by CALL, RETN, PUSH, POP, PSHI, POPI, INSP and
DESP; PC is PC + 1 but for the control transfers; IR, the counters, the engine state and the records of
executed instructions stay. That `exec` leaves TIR, MAR and MBR too is the model's arrangement: they are free
values drawn by the fetch (log entries 3 and 18). Memory is `MemoryFrame`'s, and the ALU trace is left free. -/
def Obligations.RegisterFrame : Prop :=
  ∀ (i : Instr) (s t : State), exec i s = .next t →
    s.Changes t t.pc t.ac t.sp t.mem ∧
    (t.ac ≠ s.ac → i.mnemonic ∈ [.basic .lodd, .basic .addd, .basic .subd, .basic .loco,
      .basic .lodl, .basic .addl, .basic .subl, .ext .pop, .ext .swap]) ∧
    (t.sp ≠ s.sp → i.mnemonic ∈ [.basic .call, .ext .retn, .ext .push, .ext .pop, .ext .pshi,
      .ext .popi, .ext .insp, .ext .desp]) ∧
    (t.pc ≠ s.pc + 1 → i.mnemonic ∈ [.basic .jump, .basic .jpos, .basic .jzer, .basic .jneg,
      .basic .jnze, .basic .call, .ext .retn])

/-- spec/60_exceptions.md R231, R233, R238; spec/20_memory.md R57 (D7, log entry 14). An instruction
completes exactly where every access of R57's table is inside memory and, if it pops, the stack is not
empty. -/
def Obligations.CompletesExactlyWhen : Prop :=
  ∀ (i : Instr) (s : State),
    (∃ t, exec i s = .next t) ↔
      (pops i = true → s.sp < 4095) ∧ ∀ x ∈ accesses i s, InMemory x.addr

/-- spec/60_exceptions.md R231, R233. A well-formed instruction raises `OutOfBounds` only if it is LODL,
STOL, ADDL, SUBL, CALL, PUSH, PSHI, POP, POPI or RETN, with the offending address, and `StackUnderflow`
only if it pops with SP at or above the stack base, with SP; it raises nothing else. -/
def Obligations.FaultsOfInstructions : Prop :=
  ∀ (i : Instr) (s : State) (f : Fault), i.wf = true → exec i s = .fault f →
    (∃ a, f = .outOfBounds a s ∧ ¬ InMemory a ∧ (∃ x ∈ accesses i s, x.addr = a) ∧
      i.mnemonic ∈ [.basic .lodl, .basic .stol, .basic .addl, .basic .subl, .basic .call, .ext .push,
        .ext .pshi, .ext .pop, .ext .popi, .ext .retn]) ∨
    (f = .stackUnderflow s.sp s ∧ 4095 ≤ s.sp ∧
      i.mnemonic ∈ [.ext .pop, .ext .popi, .ext .retn])

/-- spec/43_control.md R186 to R188 (the pushed word: D5, log entry 11). After a CALL, a RETN on any state
in which SP and the word it addresses are what the CALL left returns to the word after the CALL, with SP
as it was before the CALL. -/
def Obligations.ReturnAfterCall : Prop :=
  ∀ (s : State) (a : Nat), s.mem.wf = true → a ≤ 4095 → 1 ≤ s.sp → s.sp ≤ 4095 →
    ∃ t, exec (.call a) s = .next t ∧
      ∀ r : State, r.sp = t.sp → r.word r.sp = t.word t.sp →
        ∃ u, exec .retn r = .next u ∧ u.pc = s.pc + 1 ∧ u.sp = s.sp

/-- spec/43_control.md R188; spec/95_test_vectors.md S6. Consecutive PUSH/POP pairs leave SP unchanged,
and AC holds the last immediate pushed. -/
def Obligations.PushPopPairs : Prop :=
  ∀ (ks : List Nat) (s : State), s.mem.wf = true → (∀ k ∈ ks, k ≤ 255) → 1 ≤ s.sp → s.sp ≤ 4095 →
    ∃ t, execAll (ks.flatMap fun k => [.push k, .pop 0]) s = .next t ∧ t.sp = s.sp ∧
      t.pc = s.pc + 2 * ks.length ∧ t.ac = (ks.getLast?.map Int.ofNat).getD s.ac

/-! ## The step -/

/-- spec/40_datapath.md R112. When the word at PC is not 0 and decodes to an instruction, the step is
`exec` of it on the fetched state (IR the word; TIR, MAR, MBR drawn), and a next state is then retired. -/
def Obligations.StepRunsDecodedInstruction : Prop :=
  ∀ (s : State) (i : Instr), InMemory s.pc → s.word s.pc ≠ 0 → decode (s.word s.pc) = .instr i →
    step s =
      match exec i (s.setIr (s.word s.pc)) with
      | .next t => .next (t.retire i)
      | .fault f => .fault f
      | .refused r => .refused r

/-- spec/30_encoding.md R81, whole. LODD 0 is the word 0 and would be decoded from it, but fetching a 0
halts: a step that executes an instruction fetched another word. -/
def Obligations.SentinelHalts : Prop :=
  encode (.lodd 0) = 0x0000 ∧ decode 0x0000 = .instr (.lodd 0) ∧
  (∀ s : State, InMemory s.pc → s.word s.pc = 0 → ∃ t, step s = .fault (.endOfProgram t)) ∧
  ∀ s t : State, step s = .next t → s.word s.pc ≠ 0

/-- spec/40_datapath.md R112, R114; spec/60_exceptions.md R231 (a negative PC: D8, log entry 14). A fetch
outside memory raises `OutOfBounds(PC)` and changes no state at all. -/
def Obligations.FetchOutsideMemory : Prop :=
  ∀ s : State, (s.pc < 0 ∨ 4096 ≤ s.pc) → step s = .fault (.outOfBounds s.pc s)

/-- spec/44_extended.md R208; spec/60_exceptions.md R234 (D9, D10, log entries 12 and 13). A word that
decodes to UNDEF or ILLEGAL raises `IllegalInstruction(PC, w)`, and only IR and the unspecified registers
are written. -/
def Obligations.IllegalWordsFault : Prop :=
  ∀ s : State, InMemory s.pc →
    ((∃ sub y, decode (s.word s.pc) = .undef sub y) ∨ (∃ w, decode (s.word s.pc) = .illegal w)) →
    ∃ t, step s = .fault (.illegalInstruction s.pc (s.word s.pc) t) ∧ t.ir = s.word s.pc ∧
      s.OnlyFetched t

/-- spec/40_datapath.md R111, each outcome with its cause as R112 gives it, and never a refusal. With `w`
the word at PC and `f` the fetched state: `Ok` exactly where `w` is not 0 and decodes to an instruction that
completes, whose effects, retired, are the next state; `Halt` exactly where `w` is 0; `OutOfBounds` exactly
where PC is outside memory, or an access of the decoded instruction is and it does not underflow;
`StackUnderflow` exactly where it pops an empty stack; `IllegalInstruction` exactly where `w` decodes to no
instruction. The causes outside the source's own are decisions: a negative PC D8, a data address D7 (log entry
14), UNDEF D9 and wide words D10 (log entries 13 and 12), the state after a fault D11 and D35 (log entry 19),
the retired records D28 (log entry 32). -/
def Obligations.StepHasThreeOutcomes : Prop :=
  ∀ s : State,
    let w := s.word s.pc
    let f := s.setIr w
    let Runs := fun i => InMemory s.pc ∧ w ≠ 0 ∧ decode w = .instr i
    (∀ t, step s = .next t ↔ ∃ i u, Runs i ∧ exec i f = .next u ∧ t = u.retire i) ∧
    (∀ t, step s = .fault (.endOfProgram t) ↔ InMemory s.pc ∧ w = 0 ∧ t = f) ∧
    (∀ a t, step s = .fault (.outOfBounds a t) ↔
      (¬ InMemory s.pc ∧ a = s.pc ∧ t = s) ∨
      (∃ i, Runs i ∧ (pops i = true → s.sp < 4095) ∧
        (∃ x ∈ accesses i s, ¬ InMemory x.addr ∧ a = x.addr) ∧ t = f)) ∧
    (∀ sp t, step s = .fault (.stackUnderflow sp t) ↔
      ∃ i, Runs i ∧ pops i = true ∧ 4095 ≤ s.sp ∧ sp = s.sp ∧ t = f) ∧
    (∀ pc v t, step s = .fault (.illegalInstruction pc v t) ↔
      InMemory s.pc ∧ (∀ i, decode w ≠ .instr i) ∧ pc = s.pc ∧ v = w ∧ t = f) ∧
    (∀ r, step s ≠ .refused r)

/-- spec/60_exceptions.md R238. The checks of a step in their order: the fetch bounds, the halt, decode
validity, the instruction's own. The checks the spec adds are decisions D7 to D10 (log entries 12 to 14). -/
def Obligations.StepChecksInOrder : Prop :=
  ∀ (s : State) (f : Fault), step s = .fault f →
    (¬ InMemory s.pc ∧ f.code = 2) ∨
    (InMemory s.pc ∧ s.word s.pc = 0 ∧ f.code = 1) ∨
    (InMemory s.pc ∧ s.word s.pc ≠ 0 ∧ (∀ i, decode (s.word s.pc) ≠ .instr i) ∧ f.code = 4) ∨
    (InMemory s.pc ∧ s.word s.pc ≠ 0 ∧ ∃ i, decode (s.word s.pc) = .instr i ∧
      f.code = if pops i = true ∧ 4095 ≤ s.sp then 3 else 2)

/-- spec/40_datapath.md R112, R122 (commit or nothing: D11; IR after a halt: D35; log entry 4 on the
unspecified registers). A step that ends in a fault or a halt changes only IR and the unspecified registers;
IR is then the fetched word; where PC is outside memory nothing is fetched and nothing changes at all. -/
def Obligations.FaultsArePrecise : Prop :=
  ∀ (s : State) (f : Fault), step s = .fault f →
    s.OnlyFetched f.after ∧ (InMemory s.pc → f.after.ir = s.word s.pc) ∧
      (¬ InMemory s.pc → f.after = s)

/-- spec/60_exceptions.md R240. Stepped again without a change by the host, a halted or faulted machine
gives the same outcome, from a state that agrees with the one before. The state a fault leaves is decisions
D11 and D35 (log entry 19). -/
def Obligations.FaultsRepeat : Prop :=
  ∀ (s : State) (f : Fault), step s = .fault f →
    ∃ g, step f.after = .fault g ∧ g.code = f.code ∧ g.info = f.info ∧ g.after.Agree f.after

/-- spec/10_state.md R24, R32 to R34; spec/40_datapath.md R112, R123, R124 (cycle and no entry on a fault:
D28). Every `Ok` step keeps the fetched word in IR, adds one to the count, records the decoded
instruction, writes the traces and appends one entry, which carries the new count and those traces;
`running` and the engine mode stay. -/
def Obligations.OkStepIsRecorded : Prop :=
  ∀ s t : State, step s = .next t →
    t.ir = s.word s.pc ∧ t.cycleCount = s.cycleCount + 1 ∧
    (∃ i, decode (s.word s.pc) = .instr i ∧ t.lastInstruction = some i) ∧
    t.aluTrace.operation.isSome = true ∧
    (∃ b, t.busTrace = some b ∧
      t.history = s.history ++ [{ cycle := s.cycleCount + 1, micro := t.lastMicro, bus := b }]) ∧
    t.running = s.running ∧ t.mode = s.mode

/-- spec/20_memory.md R61, R63; spec/70_reset_and_hazards.md R273. A STOD over the very next instruction is
what the next step fetches: a stored 0 halts it, a stored instruction runs. -/
def Obligations.StoredWordIsFetchedNext : Prop :=
  ∀ (s : State) (a : Nat), s.mem.wf = true → InMemory s.pc → s.pc + 1 = a → a ≤ 4095 →
    s.word s.pc = wordValue (encode (.stod a)) →
    ∃ t, step s = .next t ∧ t.pc = a ∧
      (s.ac = 0 → ∃ u, step t = .fault (.endOfProgram u)) ∧
      (∀ i, s.ac ≠ 0 → decode s.ac = .instr i →
        step t = finish i (exec i (t.setIr s.ac)))

/-- `State.Inv` is kept by every step, and by the state a halt or a fault leaves. That a history entry carries
the count after the increment, and that a halt or a fault writes none, is decision D28 (log entry 32; R124
marks it as the spec's own choice). -/
def Obligations.StepKeepsInvariant : Prop :=
  ∀ s : State, s.Inv →
    (∀ t, Sys2Proof.Machine.step s = .next t → t.Inv) ∧
    (∀ f, Sys2Proof.Machine.step s = .fault f → f.after.Inv)

/-- spec/70_reset_and_hazards.md R271; spec/40_datapath.md R123; spec/10_state.md R25 to R27 and R35: what the
spec leaves unspecified, and the traces, do not affect execution. Two states that agree on everything else step to outcomes that agree, and so do
whole runs of them. -/
def Obligations.UnspecifiedStateHasNoEffect : Prop :=
  ∀ s t : State, s.Agree t →
    Outcome.Agree (step s) (step t) ∧
    ∀ n : Int, (s.run n).1.Agree (t.run n).1 ∧ (s.run n).2.code = (t.run n).2.code ∧
      (s.run n).2.info = (t.run n).2.info

/-! ## The host's operations -/

/-- spec/70_reset_and_hazards.md R276, R277; spec/10_state.md R33, R34. Every host operation keeps the
invariant and leaves the engine Idle and not running. The history numbering of the invariant is decision D28
(log entry 32); that every run ends Idle, whatever ended it, is the model's reading (DEDUCED, log entry 21). -/
def Obligations.HostOperationsKeepInvariant : Prop :=
  ∀ (op : HostOp) (c : Controller), c.engine.Inv → c.engine.IsIdle →
    (hostAct op c).1.engine.Inv ∧ (hostAct op c).1.engine.IsIdle

/-- spec/70_reset_and_hazards.md R260; spec/60_exceptions.md R248. Whatever the state, a host reset gives
every piece of state its reset value, the model's own count of draws apart, and fresh debug information. -/
def Obligations.HostResetIsUnconditional : Prop :=
  ∀ c : Controller,
    (hostAct .reset c).1.engine = { State.reset with draws := c.engine.draws } ∧
    (hostAct .reset c).1.debugInfo = DebugInfo.initial

/-- spec/70_reset_and_hazards.md R268 (D23). A guard of 0 or less steps not at all; a run that trips its
guard made exactly that many `Ok` steps. -/
def Obligations.RunGuard : Prop :=
  (∀ (s : State) (n : Int), n ≤ 0 → s.run n = (s.idle, .maxCyclesExceeded n)) ∧
  (∀ (s : State) (n : Int), (s.run n).2 = .maxCyclesExceeded n →
    ∃ t, s.startRun.OkSteps n.toNat t ∧ (s.run n).1 = t.idle ∧
      (s.run n).1.cycleCount = s.cycleCount + n.toNat)

/-- spec/70_reset_and_hazards.md R268 to R270. A run that ends in a fault or a halt made `k` `Ok` steps
before it, fewer than the guard, counts exactly those, and leaves the state that step left. That the guard
counts the steps of this call is decision D23 (log entry 34). That the run ends Idle, in its state and in the
condition it returns, is log entry 21. -/
def Obligations.RunStopsAtFirstFault : Prop :=
  ∀ (s : State) (n : Int) (f : Fault), (s.run n).2 = .stopped f →
    ∃ (k : Nat) (t : State) (g : Fault), (k : Int) < n ∧ s.startRun.OkSteps k t ∧ step t = .fault g ∧
      f.code = g.code ∧ f.info = g.info ∧ f.after = g.after.idle ∧ (s.run n).1 = g.after.idle ∧
      (s.run n).1.cycleCount = s.cycleCount + k

/-- spec/60_exceptions.md R240. After `MaxCyclesExceeded` a new run continues from the state reached: two
runs end where one run with both guards ends, since a guard counts the steps of its own call (decision D23,
log entry 34). -/
def Obligations.RunContinues : Prop :=
  ∀ (s : State) (m n : Int), 0 ≤ m → 0 ≤ n → (s.run m).2 = .maxCyclesExceeded m →
    ((s.run m).1.run n).1 = (s.run (m + n)).1 ∧
    ((s.run m).1.run n).2.code = (s.run (m + n)).2.code

/-- spec/70_reset_and_hazards.md R262, R263 (the bound: D22, log entry 26). A program that fits and whose
lines all parse is loaded: each line's word at consecutive addresses, a zero word after it, every other word
and every register as before. -/
def Obligations.LoadPlacesProgram : Prop :=
  ∀ (s : State) (lines : List Text) (base : Int) (ps : List Parsed),
    s.mem.wf = true → 0 ≤ base → base + (codeLines lines).length + 1 ≤ 4096 →
    (codeLines lines).map parse = ps.map .ok →
    ∃ t, s.loadProgram lines base = (t, none) ∧
      (∀ (j : Nat) (h : j < ps.length), t.word (base + j) = wordValue ps[j].word) ∧
      t.word (base + ps.length) = 0 ∧
      (∀ b, InMemory b → (b < base ∨ base + ps.length < b) → t.word b = s.word b) ∧
      t = { s.idle with mem := t.mem }

/-- spec/70_reset_and_hazards.md R266 (D24; the bound: D22, log entry 26). Where a line fails, the lines before it are loaded and nothing
else is: no sentinel, every other word as before. -/
def Obligations.FailedLoadIsPartial : Prop :=
  ∀ (s : State) (lines rest : List Text) (line : Text) (base : Int) (ps : List Parsed) (e : AsmError)
    (good : List Text),
    s.mem.wf = true → 0 ≤ base → base + (codeLines lines).length + 1 ≤ 4096 →
    codeLines lines = good ++ line :: rest → good.map parse = ps.map .ok → parse line = .error e →
    ∃ t, s.loadProgram lines base = (t, some (.codec e)) ∧
      (∀ (j : Nat) (h : j < ps.length), t.word (base + j) = wordValue ps[j].word) ∧
      (∀ b, InMemory b → (b < base ∨ base + ps.length ≤ b) → t.word b = s.word b) ∧
      t = { s.idle with mem := t.mem }

/-- spec/70_reset_and_hazards.md R263, R264 (D21, D22; a negative base and the engine's own check: log entry
26). A program whose lines with the sentinel do not fit below 4096, or a `.data` address outside 0..4095, is
refused with nothing written after the reset, and no other program is refused for its range. The engine's own
load makes the same check at any base. -/
def Obligations.LoadRangeIsChecked : Prop :=
  (∀ (c : Controller) (p : Program),
    let fits := (codeLines p.instructions).length + 1 ≤ 4096 ∧ ∀ d ∈ p.data, 0 ≤ d.1 ∧ d.1 ≤ 4095
    (¬ fits → (c.loadProgram p).2 = some .range ∧ (c.loadProgram p).1.engine = c.engine.resetByHost ∧
      (c.loadProgram p).1.debugInfo = c.debugInfo) ∧
    (fits → (c.loadProgram p).2 ≠ some .range)) ∧
  (∀ (s : State) (lines : List Text) (base : Int),
    let fits := 0 ≤ base ∧ base + (codeLines lines).length + 1 ≤ 4096
    (¬ fits → s.loadProgram lines base = (s, some .range)) ∧
    (fits → (s.loadProgram lines base).2 ≠ some .range))

/-- spec/70_reset_and_hazards.md R264, R265. After a successful load every `.data` word holds its value, also
where it stands on a code word or on the sentinel, and PC is 0. -/
def Obligations.DataIsWrittenLast : Prop :=
  ∀ (c : Controller) (p : Program), (c.loadProgram p).2 = none → (p.data.map Prod.fst).Nodup →
    (∀ d ∈ p.data, (c.loadProgram p).1.engine.word d.1 = d.2) ∧
    (c.loadProgram p).1.engine.pc = 0 ∧ (c.loadProgram p).1.debugInfo = DebugInfo.initial

/-- spec/30_encoding.md R87, R88 (line numbers: D38; comments: D20; a repeated address: D21; log entries 28
and 34). A text is valid exactly when it has no error, and has a program exactly then. An error stands at a
line number exactly when that trimmed line is neither blank nor a comment and fails as a `.data` line, or else
as an instruction, with that error; numbers rise. The program is then every other line that is no `.data`
line, in order, and for each address the value of the last `.data` line that names it. -/
def Obligations.ParseReportsErrors : Prop :=
  ∀ text : Text,
    let r := parseProgram text
    let ts := (splitLines text).map trim
    r.valid = r.errors.isEmpty ∧ r.program.isSome = r.valid ∧
    (r.errors.map Prod.fst).Pairwise (· < ·) ∧
    (∀ e ∈ r.errors, 1 ≤ e.1 ∧ e.1 ≤ (splitLines text).length) ∧
    (∀ n e, (n, e) ∈ r.errors ↔
      ∃ t, 1 ≤ n ∧ ts[n - 1]? = some t ∧ t ≠ [] ∧ t.head? ≠ some '#' ∧
        if ".data".toList <+: t then parseData t = .error e else parse t = .error e) ∧
    ∀ p, r.program = some p →
      p.instructions = ts.filter (fun t => t ≠ [] ∧ t.head? ≠ some '#' ∧ ¬ ".data".toList <+: t) ∧
      ∀ a v, (a, v) ∈ p.data ↔
        (((ts.filter (".data".toList <+: ·)).filterMap fun t => (parseData t).toOption).filter
          (·.1 = a)).getLast? = some (a, v)

/-- spec/30_encoding.md R87, R88; spec/70_reset_and_hazards.md R266 (D21). A program the parser accepts has
no address twice in its data, and loading it cannot fail in the codec. -/
def Obligations.ParsedProgramLoads : Prop :=
  ∀ (text : Text) (p : Program) (c : Controller), (parseProgram text).program = some p →
    (p.data.map Prod.fst).Nodup ∧ ∀ e, (c.loadProgram p).2 ≠ some (.codec e)

/-- spec/30_encoding.md R90 (the format: D39). A line that encodes gives 16 characters `0` and `1` that
spell its word, most significant first; a line that fails gives "ERROR"; the lines do not affect each other. -/
def Obligations.BinaryListing : Prop :=
  (∀ w : InstrWord, (bitText w).length = 16 ∧ (∀ c ∈ bitText w, c = '0' ∨ c = '1') ∧
    (bitText w).foldl (fun n c => 2 * n + if c = '1' then 1 else 0) 0 = w.toNat) ∧
  (∀ p : Program, (programToBinary p).length = p.instructions.length ∧
    ∀ (j : Nat) (h : j < p.instructions.length),
      (programToBinary p)[j]? =
        some (match parse p.instructions[j] with
          | .ok q => bitText q.word
          | .error _ => "ERROR".toList))

/-- spec/20_memory.md R65 (D30). A peek inside memory is the word instructions read. A poke inside memory is
what a peek then reads, and leaves every other word; outside memory it is refused, and a peek reads 0; a dump is the peeks of its range. -/
def Obligations.HostMemoryAccess : Prop :=
  (∀ (s : State) (a : Int), InMemory a → s.peek a = s.word a) ∧
  (∀ (s : State) (a v : Int), s.mem.wf = true → InMemory a →
    ∃ t, s.poke a v = some t ∧ t.peek a = v ∧ (∀ b, b ≠ a → t.peek b = s.peek b) ∧
      t = { s with mem := t.mem }) ∧
  (∀ (s : State) (a v : Int), ¬ InMemory a → s.poke a v = none ∧ s.peek a = 0) ∧
  (∀ (s : State) (start length : Int), (s.memoryDump start length).length = length.toNat ∧
    ∀ i : Nat, i < length.toNat → (s.memoryDump start length)[i]? = some (s.peek (start + i)))

/-- spec/10_state.md R31, R36 (D27; a negative SP: log entry 25). The snapshot's stack is the words
M[SP] to M[4094], none at or above the stack base, and follows a push: its words are the pushed one and
those before. -/
def Obligations.SnapshotStack : Prop :=
  (∀ s : State, 4095 ≤ s.sp → s.snapshot.stack = []) ∧
  (∀ s : State, 0 ≤ s.sp → s.sp < 4095 → (s.snapshot.stack.length : Int) = 4095 - s.sp ∧
    ∀ i : Nat, (i : Int) < 4095 - s.sp → s.snapshot.stack[i]? = some (s.word (s.sp + i))) ∧
  (∀ (s t : State) (k : Nat), s.mem.wf = true → 1 ≤ s.sp → s.sp ≤ 4095 →
    exec (.push k) s = .next t → t.snapshot.stack = (k : Int) :: s.snapshot.stack)

/-- spec/60_exceptions.md R249, R250 (D29, log entry 27). Over a `continue`, the controller's line count and the
engine's cycle count rise by the same number. That the line count stays over a halting or faulting step is the
model's reading of "on success" as `Ok` (DESIGN CHOICE, log entry 15). -/
def Obligations.ContinueCountsLines : Prop :=
  ∀ (n : Nat) (c d : Controller) (st : Status), c.continueFor n = some (d, st) →
    d.debugInfo.currentLine - c.debugInfo.currentLine = d.engine.cycleCount - c.engine.cycleCount
end

