-- ==== Sys2Proof/Laws/Decode.lean ====
section
/-! SUPPORT. The fields of an encoded word are what was put into them, and the opcode map has an inverse. -/

namespace Sys2Proof

/-! ### Bits and fields of an encoded word -/

theorem getLsbD_basicWord (b : BasicOp) (k : Int) (j : Nat) :
    (basicWord b k).getLsbD j =
      if j < 12 then (BitVec.ofInt 12 k).getLsbD j else (basicCode b).getLsbD (j - 12) :=
  BitVec.getLsbD_append

/-- `0xF000 |` (R82) puts the prefix above twelve bits: the same as standing side by side (R72). -/
theorem extBase_or (c : BitVec 4) (y : BitVec 8) :
    extBase ||| (c ++ y).setWidth 16 = (extMark ++ c ++ y : BitVec (4 + 4 + 8)) := by
  apply BitVec.eq_of_getLsbD_eq
  intro j hj
  have hbase : extBase.getLsbD j = if j < 12 then false else extMark.getLsbD (j - 12) := by
    refine (BitVec.getLsbD_append (x := extMark) (y := (0 : BitVec 12))).trans ?_
    simp
  have hlow : (c ++ y).getLsbD j = if j < 8 then y.getLsbD j else c.getLsbD (j - 8) :=
    BitVec.getLsbD_append
  have hright : (extMark ++ c ++ y : BitVec (4 + 4 + 8)).getLsbD j =
      if j < 8 then y.getLsbD j else if j - 8 < 4 then c.getLsbD (j - 8)
        else extMark.getLsbD (j - 8 - 4) := by
    refine (BitVec.getLsbD_append (x := extMark ++ c) (y := y)).trans ?_
    rw [BitVec.getLsbD_append (x := extMark) (y := c)]
  rw [BitVec.getLsbD_or, BitVec.getLsbD_setWidth, hbase, hlow]
  refine Eq.trans ?_ hright.symm
  by_cases h8 : j < 8
  · have h12 : j < 12 := by omega
    simp [h8, h12, hj]
  · by_cases h12 : j < 12
    · have h4 : j - 8 < 4 := by omega
      simp [h8, h12, hj, h4]
    · have h4 : ¬ j - 8 < 4 := by omega
      have hc : c.getLsbD (j - 8) = false := BitVec.getLsbD_of_ge _ _ (by omega)
      simp [h8, h12, h4, hc, Nat.sub_sub]

theorem extWord_eq_append (e : ExtOp) (k : Int) :
    extWord e k = extMark ++ extCode e ++ BitVec.ofInt 8 k :=
  extBase_or (extCode e) (BitVec.ofInt 8 k)

theorem getLsbD_extWord (e : ExtOp) (k : Int) (j : Nat) :
    (extWord e k).getLsbD j =
      if j < 8 then (BitVec.ofInt 8 k).getLsbD j
      else if j - 8 < 4 then (extCode e).getLsbD (j - 8) else extMark.getLsbD (j - 8 - 4) := by
  rw [extWord_eq_append]
  refine (BitVec.getLsbD_append (x := extMark ++ extCode e) (y := BitVec.ofInt 8 k)).trans ?_
  rw [BitVec.getLsbD_append (x := extMark) (y := extCode e)]

@[simp] theorem opField_basicWord (b : BasicOp) (k : Int) : opField (basicWord b k) = basicCode b := by
  apply BitVec.eq_of_getLsbD_eq
  intro j hj
  simp [opField, getLsbD_basicWord, hj]

@[simp] theorem basicField_basicWord (b : BasicOp) (k : Int) :
    basicField (basicWord b k) = BitVec.ofInt 12 k := by
  apply BitVec.eq_of_getLsbD_eq
  intro j hj
  simp only [basicField, BitVec.getLsbD_extractLsb', getLsbD_basicWord, Nat.zero_add, hj, if_true]
  simp

@[simp] theorem opField_extWord (e : ExtOp) (k : Int) : opField (extWord e k) = extMark := by
  apply BitVec.eq_of_getLsbD_eq
  intro j hj
  have h1 : ¬ 12 + j < 8 := by omega
  have h2 : ¬ 12 + j - 8 < 4 := by omega
  have h3 : 12 + j - 8 - 4 = j := by omega
  simp [opField, getLsbD_extWord, hj, h1, h2, h3]

@[simp] theorem subField_extWord (e : ExtOp) (k : Int) : subField (extWord e k) = extCode e := by
  apply BitVec.eq_of_getLsbD_eq
  intro j hj
  have h1 : ¬ 8 + j < 8 := by omega
  simp [subField, getLsbD_extWord, hj]

@[simp] theorem extField_extWord (e : ExtOp) (k : Int) :
    extField (extWord e k) = BitVec.ofInt 8 k := by
  apply BitVec.eq_of_getLsbD_eq
  intro j hj
  simp only [extField, BitVec.getLsbD_extractLsb', getLsbD_extWord, Nat.zero_add, hj, if_true]
  simp

/-! ### Field ranges, with the widths as numbers -/

theorem basicField_lt (w : InstrWord) : (basicField w).toNat < 4096 := (basicField w).isLt

theorem extField_lt (w : InstrWord) : (extField w).toNat < 256 := (extField w).isLt

/-- A word is its basic fields (R71). -/
theorem toNat_eq_basicFields (w : InstrWord) :
    w.toNat = (opField w).toNat * 4096 + (basicField w).toNat := by
  have := w.isLt
  simp [opField, basicField, BitVec.extractLsb', Nat.shiftRight_eq_div_pow]
  omega

/-- A word is its extended fields (R72). -/
theorem toNat_eq_extFields (w : InstrWord) :
    w.toNat = (opField w).toNat * 4096 + (subField w).toNat * 256 + (extField w).toNat := by
  have := w.isLt
  simp [opField, subField, extField, BitVec.extractLsb', Nat.shiftRight_eq_div_pow]
  omega

@[simp] theorem fitsBasic_iff (x : Nat) : fitsBasic x = true ↔ x ≤ 4095 :=
  decide_eq_true_iff

@[simp] theorem fitsExt_iff (y : Nat) : fitsExt y = true ↔ y ≤ 255 :=
  decide_eq_true_iff

@[simp] theorem fitsImm_iff (k : Int) : fitsImm k = true ↔ -2048 ≤ k ∧ k ≤ 2047 :=
  decide_eq_true_iff

/-- `sext_12` as an integer (R76). -/
theorem sext_eq (x : BitVec 12) :
    sext x = if x.toNat < 2048 then (x.toNat : Int) else (x.toNat : Int) - 4096 := by
  simp only [sext, BitVec.toInt_eq_toNat_cond]
  split <;> split <;> omega

/-! ### The opcode map -/

@[simp] theorem basicOfCode_basicCode (b : BasicOp) : basicOfCode (basicCode b) = some b := by
  cases b <;> decide

@[simp] theorem extOfCode_extCode (e : ExtOp) : extOfCode (extCode e) = some e := by
  cases e <;> decide

@[simp] theorem basicOfCode_extMark : basicOfCode extMark = none := by decide

theorem basicCode_of_basicOfCode {c : BitVec 4} {b : BasicOp} (h : basicOfCode c = some b) :
    basicCode b = c := by
  simpa using List.find?_some h

theorem extCode_of_extOfCode {c : BitVec 4} {e : ExtOp} (h : extOfCode c = some e) : extCode e = c := by
  simpa using List.find?_some h

/-- Only 0xF is no basic code (spec/30_encoding.md R71, R73). -/
theorem basicOfCode_none_iff (c : BitVec 4) : basicOfCode c = none ↔ c = extMark := by
  revert c; decide

/-- No basic opcode carries the extended prefix (R73). -/
@[simp] theorem basicCode_ne_extMark (b : BasicOp) : basicCode b ≠ extMark := by
  cases b <;> decide

/-- Every word is an instruction of one format, or an unassigned extended sub-code (R73, R79): the decoder's
last arm is reached by none. -/
theorem decodeWord_cases (w : InstrWord) :
    (∃ b, basicOfCode (opField w) = some b ∧ decodeWord w = .instr (basicInstr b (basicField w))) ∨
    (opField w = extMark ∧ ∃ e, extOfCode (subField w) = some e ∧
      decodeWord w = .instr (extInstr e (extField w))) ∨
    (opField w = extMark ∧ extOfCode (subField w) = none ∧
      decodeWord w = .undef (subField w) (extField w)) := by
  by_cases hm : opField w = extMark
  · cases he : extOfCode (subField w) with
    | some e => exact .inr (.inl ⟨hm, e, rfl, by simp [decodeWord, hm, he]⟩)
    | none => exact .inr (.inr ⟨hm, rfl, by simp [decodeWord, hm, he]⟩)
  · cases hb : basicOfCode (opField w) with
    | some b => exact .inl ⟨b, rfl, by simp [decodeWord, hm, hb]⟩
    | none => exact absurd ((basicOfCode_none_iff _).1 hb) hm

/-! ### A word's integer -/

theorem wordValue_range (w : InstrWord) : 0 ≤ wordValue w ∧ wordValue w ≤ 0xFFFF := by
  have := w.isLt
  simp only [wordValue]
  omega

@[simp] theorem ofInt_wordValue (w : InstrWord) : BitVec.ofInt 16 (wordValue w) = w := by
  apply BitVec.eq_of_toNat_eq
  have := w.isLt
  simp [wordValue]

/-- On the integer of a 16-bit word the decoder is the decoder of that word. -/
@[simp] theorem decode_wordValue (w : InstrWord) : decode (wordValue w) = decodeWord w := by
  simp only [decode, decodeUnder, wordValue_range w, and_self, if_true, ofInt_wordValue]

/-! ### Decoding an encoded opcode -/

theorem decodeWord_basicWord (b : BasicOp) (k : Int) :
    decodeWord (basicWord b k) = .instr (basicInstr b (BitVec.ofInt 12 k)) := by
  simp [decodeWord]

theorem decodeWord_extWord (e : ExtOp) (k : Int) :
    decodeWord (extWord e k) = .instr (extInstr e (BitVec.ofInt 8 k)) := by
  simp [decodeWord]

/-! ### Operands -/

/-- An operand inside its unsigned field comes back. -/
theorem zext_ofInt {n a : Nat} (h : a < 2 ^ n) : zext (BitVec.ofInt n (a : Int)) = a := by
  simp [zext, Nat.mod_eq_of_lt h]

/-- An immediate inside its signed field comes back. -/
theorem sext_ofInt {k : Int} (h : -2048 ≤ k) (h' : k ≤ 2047) : sext (BitVec.ofInt 12 k) = k := by
  simp only [sext, BitVec.toInt_ofInt, Int.bmod]
  omega

end Sys2Proof
end

