-- ==== Sys2Proof/Laws/Memory.lean ====
section
/-! SUPPORT. The memory words: read after write, the canonical form is kept, and equal reads mean equal
memories. -/

namespace Sys2Proof.Machine

theorem inMemory_iff {a : Int} : InMemory a ↔ 0 ≤ a ∧ a ≤ 4095 := by
  simp only [InMemory, Params.memorySize]
  omega

theorem Memory.wfFrom_cons (lo a : Nat) (v : Int) (m : Memory) :
    Memory.wfFrom lo ((a, v) :: m) = true ↔
      lo ≤ a ∧ InMemory a ∧ v ≠ 0 ∧ Memory.wfFrom (a + 1) m = true := by
  simp only [Memory.wfFrom, Bool.and_eq_true, decide_eq_true_eq, and_assoc]
  rfl

theorem Memory.wfFrom_mono {lo lo' : Nat} {m : Memory} (h : lo' ≤ lo)
    (hm : Memory.wfFrom lo m = true) : Memory.wfFrom lo' m = true := by
  cases m with
  | nil => rfl
  | cons c m =>
    obtain ⟨a, v⟩ := c
    rw [Memory.wfFrom_cons] at hm ⊢
    exact ⟨by omega, hm.2⟩

/-- Below its first address a memory in canonical form reads the reset word. -/
theorem Memory.read_below {lo a : Nat} {m : Memory} (hm : Memory.wfFrom lo m = true) (h : a < lo) :
    m.read a = 0 := by
  induction m generalizing lo with
  | nil => rfl
  | cons c m ih =>
    obtain ⟨b, v⟩ := c
    rw [Memory.wfFrom_cons] at hm
    have hab : a ≠ b := by omega
    simp only [Memory.read, hab, if_false]
    exact ih hm.2.2.2 (by omega)

theorem Memory.read_write_same {m : Memory} (hm : m.wf = true) (a : Nat) (v : Int) :
    (m.write a v).read a = v := by
  suffices ∀ lo, Memory.wfFrom lo m = true → (m.write a v).read a = v from this 0 hm
  clear hm
  induction m with
  | nil => intro lo _; by_cases hv : v = 0 <;> simp [Memory.write, Memory.read, hv]
  | cons c m ih =>
    obtain ⟨b, w⟩ := c
    intro lo h
    rw [Memory.wfFrom_cons] at h
    obtain ⟨-, -, -, hrest⟩ := h
    rcases Nat.lt_trichotomy a b with hab | hab | hab
    · by_cases hv : v = 0
      · simp [Memory.write, Memory.read, hab, hv, Nat.ne_of_lt hab,
          Memory.read_below hrest (Nat.lt_succ_of_lt hab)]
      · simp [Memory.write, Memory.read, hab, hv]
    · subst hab
      by_cases hv : v = 0
      · simp [Memory.write, hv, Memory.read_below hrest (Nat.lt_succ_self a)]
      · simp [Memory.write, Memory.read, hv]
    · have h1 : ¬ a < b := by omega
      have h2 : a ≠ b := by omega
      simpa [Memory.write, Memory.read, h1, h2] using ih (b + 1) hrest

theorem Memory.read_write_other (m : Memory) {a b : Nat} (h : b ≠ a) (v : Int) :
    (m.write a v).read b = m.read b := by
  induction m with
  | nil => by_cases hv : v = 0 <;> simp [Memory.write, Memory.read, hv, h]
  | cons c m ih =>
    obtain ⟨d, w⟩ := c
    by_cases h1 : a < d
    · by_cases hv : v = 0 <;> simp [Memory.write, Memory.read, h1, hv, h]
    · by_cases h2 : a = d
      · subst h2
        by_cases hv : v = 0 <;> simp [Memory.write, Memory.read, hv, h]
      · simp [Memory.write, Memory.read, h1, h2, ih]

theorem Memory.wfFrom_write {lo a : Nat} {m : Memory} (hm : Memory.wfFrom lo m = true)
    (hlo : lo ≤ a) (ha : InMemory a) (v : Int) : Memory.wfFrom lo (m.write a v) = true := by
  induction m generalizing lo with
  | nil =>
    by_cases hv : v = 0
    · simp [Memory.write, hv, Memory.wfFrom]
    · simp only [Memory.write, Params.resetWord, hv, if_false]
      rw [Memory.wfFrom_cons]
      exact ⟨hlo, ha, hv, rfl⟩
  | cons c m ih =>
    obtain ⟨b, w⟩ := c
    have hc := hm
    rw [Memory.wfFrom_cons] at hc
    obtain ⟨hb, hb', hw, hrest⟩ := hc
    rcases Nat.lt_trichotomy a b with hab | hab | hab
    · by_cases hv : v = 0
      · simpa [Memory.write, hab, hv] using hm
      · simp only [Memory.write, hab, if_true, Params.resetWord, hv, if_false]
        rw [Memory.wfFrom_cons, Memory.wfFrom_cons]
        exact ⟨hlo, ha, hv, by omega, hb', hw, hrest⟩
    · subst hab
      by_cases hv : v = 0
      · simpa [Memory.write, hv] using Memory.wfFrom_mono (by omega) hrest
      · simp only [Memory.write, Nat.lt_irrefl, if_true, if_false, Params.resetWord, hv]
        rw [Memory.wfFrom_cons]
        exact ⟨hlo, ha, hv, hrest⟩
    · have h1 : ¬ a < b := by omega
      have h2 : a ≠ b := by omega
      simp only [Memory.write, h1, h2, if_false]
      rw [Memory.wfFrom_cons]
      exact ⟨hb, hb', hw, ih hrest (by omega)⟩

/-- A write inside memory keeps the canonical form. -/
theorem Memory.wf_write {m : Memory} (hm : m.wf = true) {a : Nat} (ha : InMemory a) (v : Int) :
    (m.write a v).wf = true :=
  Memory.wfFrom_write hm (Nat.zero_le a) ha v

/-- The memory after reset has the canonical form. -/
theorem Memory.wf_reset : State.reset.mem.wf = true := rfl

/-- Two memories in canonical form that read alike are the same data. -/
theorem Memory.ext_read {m n : Memory} (hm : m.wf = true) (hn : n.wf = true)
    (h : ∀ a, m.read a = n.read a) : m = n := by
  suffices ∀ lo, Memory.wfFrom lo m = true → Memory.wfFrom lo n = true → m = n from this 0 hm hn
  clear hm hn
  induction m generalizing n with
  | nil =>
    intro lo _ hn
    cases n with
    | nil => rfl
    | cons d n =>
      obtain ⟨b, w⟩ := d
      rw [Memory.wfFrom_cons] at hn
      have := h b
      simp [Memory.read] at this
      exact absurd this.symm hn.2.2.1
  | cons c m ih =>
    obtain ⟨a, v⟩ := c
    intro lo hm hn
    rw [Memory.wfFrom_cons] at hm
    cases n with
    | nil =>
      have := h a
      simp [Memory.read] at this
      exact absurd this hm.2.2.1
    | cons d n =>
      obtain ⟨b, w⟩ := d
      rw [Memory.wfFrom_cons] at hn
      have hab : a = b := by
        rcases Nat.lt_trichotomy a b with hlt | heq | hgt
        · have h1 := h a
          simp [Memory.read, Nat.ne_of_lt hlt,
            Memory.read_below hn.2.2.2 (Nat.lt_succ_of_lt hlt)] at h1
          exact absurd h1 hm.2.2.1
        · exact heq
        · have h1 := h b
          simp [Memory.read, Nat.ne_of_lt hgt,
            Memory.read_below hm.2.2.2 (Nat.lt_succ_of_lt hgt)] at h1
          exact absurd h1.symm hn.2.2.1
      subst hab
      have hv : v = w := by simpa [Memory.read] using h a
      subst hv
      have hrest : ∀ x, Memory.read m x = Memory.read n x := by
        intro x
        by_cases hx : x = a
        · subst hx
          rw [Memory.read_below hm.2.2.2 (Nat.lt_succ_self x),
            Memory.read_below hn.2.2.2 (Nat.lt_succ_self x)]
        · simpa [Memory.read, hx] using h x
      rw [ih hrest (a + 1) hm.2.2.2 hn.2.2.2]

end Sys2Proof.Machine
end

