-- ==== Sys2Proof/Laws/State.lean ====
section
/-! SUPPORT. Every field after every update of State, one lemma each, so that no proof unfolds a record
update; and the PC sequencer's two derived forms. -/

namespace Sys2Proof.Machine

variable (s : State)

@[simp] theorem State.advance_eq : s.advance = s.goTo (s.pc + 1) := rfl

@[simp] theorem State.branch_eq (c : Bool) (a : Int) :
    s.branch c a = s.goTo (if c then a else s.pc + 1) := by
  cases c <;> rfl

/-! ### setWord -/

@[simp] theorem State.setWord_pc (a v : Int) : (s.setWord a v).pc = s.pc := rfl
@[simp] theorem State.setWord_ac (a v : Int) : (s.setWord a v).ac = s.ac := rfl
@[simp] theorem State.setWord_sp (a v : Int) : (s.setWord a v).sp = s.sp := rfl
@[simp] theorem State.setWord_ir (a v : Int) : (s.setWord a v).ir = s.ir := rfl
@[simp] theorem State.setWord_tir (a v : Int) : (s.setWord a v).tir = s.tir := rfl
@[simp] theorem State.setWord_mar (a v : Int) : (s.setWord a v).mar = s.mar := rfl
@[simp] theorem State.setWord_mbr (a v : Int) : (s.setWord a v).mbr = s.mbr := rfl
@[simp] theorem State.setWord_mem (a v : Int) : (s.setWord a v).mem = s.mem.write a.toNat v := rfl
@[simp] theorem State.setWord_cycleCount (a v : Int) :
    (s.setWord a v).cycleCount = s.cycleCount := rfl
@[simp] theorem State.setWord_running (a v : Int) : (s.setWord a v).running = s.running := rfl
@[simp] theorem State.setWord_mode (a v : Int) : (s.setWord a v).mode = s.mode := rfl
@[simp] theorem State.setWord_aluTrace (a v : Int) : (s.setWord a v).aluTrace = s.aluTrace := rfl
@[simp] theorem State.setWord_lastInstruction (a v : Int) :
    (s.setWord a v).lastInstruction = s.lastInstruction := rfl
@[simp] theorem State.setWord_lastMicro (a v : Int) : (s.setWord a v).lastMicro = s.lastMicro := rfl
@[simp] theorem State.setWord_busTrace (a v : Int) : (s.setWord a v).busTrace = s.busTrace := rfl
@[simp] theorem State.setWord_history (a v : Int) : (s.setWord a v).history = s.history := rfl
@[simp] theorem State.setWord_draws (a v : Int) : (s.setWord a v).draws = s.draws := rfl

/-! ### setSp -/

@[simp] theorem State.setSp_pc (v : Int) : (s.setSp v).pc = s.pc := rfl
@[simp] theorem State.setSp_ac (v : Int) : (s.setSp v).ac = s.ac := rfl
@[simp] theorem State.setSp_sp (v : Int) : (s.setSp v).sp = v := rfl
@[simp] theorem State.setSp_ir (v : Int) : (s.setSp v).ir = s.ir := rfl
@[simp] theorem State.setSp_tir (v : Int) : (s.setSp v).tir = s.tir := rfl
@[simp] theorem State.setSp_mar (v : Int) : (s.setSp v).mar = s.mar := rfl
@[simp] theorem State.setSp_mbr (v : Int) : (s.setSp v).mbr = s.mbr := rfl
@[simp] theorem State.setSp_mem (v : Int) : (s.setSp v).mem = s.mem := rfl
@[simp] theorem State.setSp_cycleCount (v : Int) : (s.setSp v).cycleCount = s.cycleCount := rfl
@[simp] theorem State.setSp_running (v : Int) : (s.setSp v).running = s.running := rfl
@[simp] theorem State.setSp_mode (v : Int) : (s.setSp v).mode = s.mode := rfl
@[simp] theorem State.setSp_aluTrace (v : Int) : (s.setSp v).aluTrace = s.aluTrace := rfl
@[simp] theorem State.setSp_lastInstruction (v : Int) :
    (s.setSp v).lastInstruction = s.lastInstruction := rfl
@[simp] theorem State.setSp_lastMicro (v : Int) : (s.setSp v).lastMicro = s.lastMicro := rfl
@[simp] theorem State.setSp_busTrace (v : Int) : (s.setSp v).busTrace = s.busTrace := rfl
@[simp] theorem State.setSp_history (v : Int) : (s.setSp v).history = s.history := rfl
@[simp] theorem State.setSp_draws (v : Int) : (s.setSp v).draws = s.draws := rfl

/-! ### goTo -/

@[simp] theorem State.goTo_pc (v : Int) : (s.goTo v).pc = v := rfl
@[simp] theorem State.goTo_ac (v : Int) : (s.goTo v).ac = s.ac := rfl
@[simp] theorem State.goTo_sp (v : Int) : (s.goTo v).sp = s.sp := rfl
@[simp] theorem State.goTo_ir (v : Int) : (s.goTo v).ir = s.ir := rfl
@[simp] theorem State.goTo_tir (v : Int) : (s.goTo v).tir = s.tir := rfl
@[simp] theorem State.goTo_mar (v : Int) : (s.goTo v).mar = s.mar := rfl
@[simp] theorem State.goTo_mbr (v : Int) : (s.goTo v).mbr = s.mbr := rfl
@[simp] theorem State.goTo_mem (v : Int) : (s.goTo v).mem = s.mem := rfl
@[simp] theorem State.goTo_cycleCount (v : Int) : (s.goTo v).cycleCount = s.cycleCount := rfl
@[simp] theorem State.goTo_running (v : Int) : (s.goTo v).running = s.running := rfl
@[simp] theorem State.goTo_mode (v : Int) : (s.goTo v).mode = s.mode := rfl
@[simp] theorem State.goTo_aluTrace (v : Int) : (s.goTo v).aluTrace = s.aluTrace := rfl
@[simp] theorem State.goTo_lastInstruction (v : Int) :
    (s.goTo v).lastInstruction = s.lastInstruction := rfl
@[simp] theorem State.goTo_lastMicro (v : Int) : (s.goTo v).lastMicro = s.lastMicro := rfl
@[simp] theorem State.goTo_busTrace (v : Int) : (s.goTo v).busTrace = s.busTrace := rfl
@[simp] theorem State.goTo_history (v : Int) : (s.goTo v).history = s.history := rfl
@[simp] theorem State.goTo_draws (v : Int) : (s.goTo v).draws = s.draws := rfl

/-! ### aluToAc -/

@[simp] theorem State.aluToAc_pc (op : AluOp) (b : Int) : (s.aluToAc op b).pc = s.pc := rfl
@[simp] theorem State.aluToAc_ac (op : AluOp) (b : Int) : (s.aluToAc op b).ac = alu op s.ac b := rfl
@[simp] theorem State.aluToAc_sp (op : AluOp) (b : Int) : (s.aluToAc op b).sp = s.sp := rfl
@[simp] theorem State.aluToAc_ir (op : AluOp) (b : Int) : (s.aluToAc op b).ir = s.ir := rfl
@[simp] theorem State.aluToAc_tir (op : AluOp) (b : Int) : (s.aluToAc op b).tir = s.tir := rfl
@[simp] theorem State.aluToAc_mar (op : AluOp) (b : Int) : (s.aluToAc op b).mar = s.mar := rfl
@[simp] theorem State.aluToAc_mbr (op : AluOp) (b : Int) : (s.aluToAc op b).mbr = s.mbr := rfl
@[simp] theorem State.aluToAc_mem (op : AluOp) (b : Int) : (s.aluToAc op b).mem = s.mem := rfl
@[simp] theorem State.aluToAc_cycleCount (op : AluOp) (b : Int) :
    (s.aluToAc op b).cycleCount = s.cycleCount := rfl
@[simp] theorem State.aluToAc_running (op : AluOp) (b : Int) :
    (s.aluToAc op b).running = s.running := rfl
@[simp] theorem State.aluToAc_mode (op : AluOp) (b : Int) : (s.aluToAc op b).mode = s.mode := rfl
@[simp] theorem State.aluToAc_aluTrace (op : AluOp) (b : Int) :
    (s.aluToAc op b).aluTrace = aluTraceOf op s.ac b s.draws := rfl
@[simp] theorem State.aluToAc_lastInstruction (op : AluOp) (b : Int) :
    (s.aluToAc op b).lastInstruction = s.lastInstruction := rfl
@[simp] theorem State.aluToAc_lastMicro (op : AluOp) (b : Int) :
    (s.aluToAc op b).lastMicro = s.lastMicro := rfl
@[simp] theorem State.aluToAc_busTrace (op : AluOp) (b : Int) :
    (s.aluToAc op b).busTrace = s.busTrace := rfl
@[simp] theorem State.aluToAc_history (op : AluOp) (b : Int) :
    (s.aluToAc op b).history = s.history := rfl
@[simp] theorem State.aluToAc_draws (op : AluOp) (b : Int) : (s.aluToAc op b).draws = s.draws := rfl

/-! ### withoutAlu -/

@[simp] theorem State.withoutAlu_pc : s.withoutAlu.pc = s.pc := rfl
@[simp] theorem State.withoutAlu_ac : s.withoutAlu.ac = s.ac := rfl
@[simp] theorem State.withoutAlu_sp : s.withoutAlu.sp = s.sp := rfl
@[simp] theorem State.withoutAlu_ir : s.withoutAlu.ir = s.ir := rfl
@[simp] theorem State.withoutAlu_tir : s.withoutAlu.tir = s.tir := rfl
@[simp] theorem State.withoutAlu_mar : s.withoutAlu.mar = s.mar := rfl
@[simp] theorem State.withoutAlu_mbr : s.withoutAlu.mbr = s.mbr := rfl
@[simp] theorem State.withoutAlu_mem : s.withoutAlu.mem = s.mem := rfl
@[simp] theorem State.withoutAlu_cycleCount : s.withoutAlu.cycleCount = s.cycleCount := rfl
@[simp] theorem State.withoutAlu_running : s.withoutAlu.running = s.running := rfl
@[simp] theorem State.withoutAlu_mode : s.withoutAlu.mode = s.mode := rfl
@[simp] theorem State.withoutAlu_aluTrace : s.withoutAlu.aluTrace = noAluTrace s.draws := rfl
@[simp] theorem State.withoutAlu_lastInstruction :
    s.withoutAlu.lastInstruction = s.lastInstruction := rfl
@[simp] theorem State.withoutAlu_lastMicro : s.withoutAlu.lastMicro = s.lastMicro := rfl
@[simp] theorem State.withoutAlu_busTrace : s.withoutAlu.busTrace = s.busTrace := rfl
@[simp] theorem State.withoutAlu_history : s.withoutAlu.history = s.history := rfl
@[simp] theorem State.withoutAlu_draws : s.withoutAlu.draws = s.draws := rfl

/-! ### drawRegisters -/

@[simp] theorem State.drawRegisters_pc : s.drawRegisters.pc = s.pc := rfl
@[simp] theorem State.drawRegisters_ac : s.drawRegisters.ac = s.ac := rfl
@[simp] theorem State.drawRegisters_sp : s.drawRegisters.sp = s.sp := rfl
@[simp] theorem State.drawRegisters_ir : s.drawRegisters.ir = s.ir := rfl
@[simp] theorem State.drawRegisters_tir : s.drawRegisters.tir = Config.freeTir s.draws := rfl
@[simp] theorem State.drawRegisters_mar : s.drawRegisters.mar = Config.freeMar s.draws := rfl
@[simp] theorem State.drawRegisters_mbr : s.drawRegisters.mbr = Config.freeMbr s.draws := rfl
@[simp] theorem State.drawRegisters_mem : s.drawRegisters.mem = s.mem := rfl
@[simp] theorem State.drawRegisters_cycleCount : s.drawRegisters.cycleCount = s.cycleCount := rfl
@[simp] theorem State.drawRegisters_running : s.drawRegisters.running = s.running := rfl
@[simp] theorem State.drawRegisters_mode : s.drawRegisters.mode = s.mode := rfl
@[simp] theorem State.drawRegisters_aluTrace : s.drawRegisters.aluTrace = s.aluTrace := rfl
@[simp] theorem State.drawRegisters_lastInstruction :
    s.drawRegisters.lastInstruction = s.lastInstruction := rfl
@[simp] theorem State.drawRegisters_lastMicro : s.drawRegisters.lastMicro = s.lastMicro := rfl
@[simp] theorem State.drawRegisters_busTrace : s.drawRegisters.busTrace = s.busTrace := rfl
@[simp] theorem State.drawRegisters_history : s.drawRegisters.history = s.history := rfl
@[simp] theorem State.drawRegisters_draws : s.drawRegisters.draws = s.draws + 1 := rfl

/-! ### setIr -/

@[simp] theorem State.setIr_pc (w : Int) : (s.setIr w).pc = s.pc := rfl
@[simp] theorem State.setIr_ac (w : Int) : (s.setIr w).ac = s.ac := rfl
@[simp] theorem State.setIr_sp (w : Int) : (s.setIr w).sp = s.sp := rfl
@[simp] theorem State.setIr_ir (w : Int) : (s.setIr w).ir = w := rfl
@[simp] theorem State.setIr_tir (w : Int) : (s.setIr w).tir = Config.freeTir s.draws := rfl
@[simp] theorem State.setIr_mar (w : Int) : (s.setIr w).mar = Config.freeMar s.draws := rfl
@[simp] theorem State.setIr_mbr (w : Int) : (s.setIr w).mbr = Config.freeMbr s.draws := rfl
@[simp] theorem State.setIr_mem (w : Int) : (s.setIr w).mem = s.mem := rfl
@[simp] theorem State.setIr_cycleCount (w : Int) : (s.setIr w).cycleCount = s.cycleCount := rfl
@[simp] theorem State.setIr_running (w : Int) : (s.setIr w).running = s.running := rfl
@[simp] theorem State.setIr_mode (w : Int) : (s.setIr w).mode = s.mode := rfl
@[simp] theorem State.setIr_aluTrace (w : Int) : (s.setIr w).aluTrace = s.aluTrace := rfl
@[simp] theorem State.setIr_lastInstruction (w : Int) : (s.setIr w).lastInstruction = s.lastInstruction := rfl
@[simp] theorem State.setIr_lastMicro (w : Int) : (s.setIr w).lastMicro = s.lastMicro := rfl
@[simp] theorem State.setIr_busTrace (w : Int) : (s.setIr w).busTrace = s.busTrace := rfl
@[simp] theorem State.setIr_history (w : Int) : (s.setIr w).history = s.history := rfl
@[simp] theorem State.setIr_draws (w : Int) : (s.setIr w).draws = s.draws + 1 := rfl

/-! ### retire -/

@[simp] theorem State.retire_pc (i : Instr) : (s.retire i).pc = s.pc := rfl
@[simp] theorem State.retire_ac (i : Instr) : (s.retire i).ac = s.ac := rfl
@[simp] theorem State.retire_sp (i : Instr) : (s.retire i).sp = s.sp := rfl
@[simp] theorem State.retire_ir (i : Instr) : (s.retire i).ir = s.ir := rfl
@[simp] theorem State.retire_tir (i : Instr) : (s.retire i).tir = s.tir := rfl
@[simp] theorem State.retire_mar (i : Instr) : (s.retire i).mar = s.mar := rfl
@[simp] theorem State.retire_mbr (i : Instr) : (s.retire i).mbr = s.mbr := rfl
@[simp] theorem State.retire_mem (i : Instr) : (s.retire i).mem = s.mem := rfl
@[simp] theorem State.retire_cycleCount (i : Instr) :
    (s.retire i).cycleCount = s.cycleCount + 1 := rfl
@[simp] theorem State.retire_running (i : Instr) : (s.retire i).running = s.running := rfl
@[simp] theorem State.retire_mode (i : Instr) : (s.retire i).mode = s.mode := rfl
@[simp] theorem State.retire_aluTrace (i : Instr) : (s.retire i).aluTrace = s.aluTrace := rfl
@[simp] theorem State.retire_lastInstruction (i : Instr) :
    (s.retire i).lastInstruction = some i := rfl
@[simp] theorem State.retire_lastMicro (i : Instr) :
    (s.retire i).lastMicro = Config.freeMicro s.draws := rfl
@[simp] theorem State.retire_busTrace (i : Instr) :
    (s.retire i).busTrace = some (busTraceOf s.draws) := rfl
@[simp] theorem State.retire_history (i : Instr) :
    (s.retire i).history = s.history ++ [HistoryEntry.mk (s.cycleCount + 1) (Config.freeMicro s.draws) (busTraceOf s.draws)] := rfl
@[simp] theorem State.retire_draws (i : Instr) : (s.retire i).draws = s.draws := rfl

/-! ### idle -/

@[simp] theorem State.idle_pc : s.idle.pc = s.pc := rfl
@[simp] theorem State.idle_ac : s.idle.ac = s.ac := rfl
@[simp] theorem State.idle_sp : s.idle.sp = s.sp := rfl
@[simp] theorem State.idle_ir : s.idle.ir = s.ir := rfl
@[simp] theorem State.idle_tir : s.idle.tir = s.tir := rfl
@[simp] theorem State.idle_mar : s.idle.mar = s.mar := rfl
@[simp] theorem State.idle_mbr : s.idle.mbr = s.mbr := rfl
@[simp] theorem State.idle_mem : s.idle.mem = s.mem := rfl
@[simp] theorem State.idle_cycleCount : s.idle.cycleCount = s.cycleCount := rfl
@[simp] theorem State.idle_running : s.idle.running = false := rfl
@[simp] theorem State.idle_mode : s.idle.mode = EngineMode.idle := rfl
@[simp] theorem State.idle_aluTrace : s.idle.aluTrace = s.aluTrace := rfl
@[simp] theorem State.idle_lastInstruction : s.idle.lastInstruction = s.lastInstruction := rfl
@[simp] theorem State.idle_lastMicro : s.idle.lastMicro = s.lastMicro := rfl
@[simp] theorem State.idle_busTrace : s.idle.busTrace = s.busTrace := rfl
@[simp] theorem State.idle_history : s.idle.history = s.history := rfl
@[simp] theorem State.idle_draws : s.idle.draws = s.draws := rfl

/-! ### startRun -/

@[simp] theorem State.startRun_pc : s.startRun.pc = s.pc := rfl
@[simp] theorem State.startRun_ac : s.startRun.ac = s.ac := rfl
@[simp] theorem State.startRun_sp : s.startRun.sp = s.sp := rfl
@[simp] theorem State.startRun_ir : s.startRun.ir = s.ir := rfl
@[simp] theorem State.startRun_tir : s.startRun.tir = s.tir := rfl
@[simp] theorem State.startRun_mar : s.startRun.mar = s.mar := rfl
@[simp] theorem State.startRun_mbr : s.startRun.mbr = s.mbr := rfl
@[simp] theorem State.startRun_mem : s.startRun.mem = s.mem := rfl
@[simp] theorem State.startRun_cycleCount : s.startRun.cycleCount = s.cycleCount := rfl
@[simp] theorem State.startRun_running : s.startRun.running = true := rfl
@[simp] theorem State.startRun_mode : s.startRun.mode = EngineMode.running := rfl
@[simp] theorem State.startRun_aluTrace : s.startRun.aluTrace = s.aluTrace := rfl
@[simp] theorem State.startRun_lastInstruction :
    s.startRun.lastInstruction = s.lastInstruction := rfl
@[simp] theorem State.startRun_lastMicro : s.startRun.lastMicro = s.lastMicro := rfl
@[simp] theorem State.startRun_busTrace : s.startRun.busTrace = s.busTrace := rfl
@[simp] theorem State.startRun_history : s.startRun.history = s.history := rfl
@[simp] theorem State.startRun_draws : s.startRun.draws = s.draws := rfl

end Sys2Proof.Machine
end

