-- ==== Sys2Proof/Laws/Ops.lean ====
section
/-! SUPPORT. What each shared operation can do, said once: the port, the stack, the fetch, committing,
and the operand forms the meanings are made of. -/

namespace Sys2Proof.Machine

variable {s t : State}

/-! ### Sequencing in a meaning -/

@[simp] theorem ok_then {α β : Type} (a : α) (f : α → Except Trap β) :
    ((Except.ok a : Except Trap α) >>= f) = f a := rfl

@[simp] theorem error_then {α β : Type} (x : Trap) (f : α → Except Trap β) :
    ((Except.error x : Except Trap α) >>= f) = .error x := rfl

@[simp] theorem return_eq_ok {α : Type} (a : α) : (pure a : Except Trap α) = .ok a := rfl

/-! ### Words and the port -/

/-- A word read after a word written (inside memory, on a memory in canonical form). -/
theorem State.word_setWord_same (hm : s.mem.wf = true) (a v : Int) :
    (s.setWord a v).word a = v :=
  Memory.read_write_same hm a.toNat v

theorem State.word_setWord_other {a b : Int} (ha : 0 ≤ a) (hb : 0 ≤ b) (h : b ≠ a) (v : Int) :
    (s.setWord a v).word b = s.word b :=
  Memory.read_write_other s.mem (by omega) v

theorem State.wf_setWord (hm : s.mem.wf = true) {a : Int} (ha : InMemory a) (v : Int) :
    (s.setWord a v).mem.wf = true :=
  by
  have h := Memory.wf_write hm (a := a.toNat) (by rw [Int.toNat_of_nonneg ha.1]; exact ha) v
  exact h

theorem State.memRead_inside {a : Int} (h : InMemory a) : s.memRead a = .ok (s.word a) := if_pos h

theorem State.memRead_outside {a : Int} (h : ¬ InMemory a) :
    s.memRead a = .error (.outOfBounds a) := if_neg h

theorem State.memWrite_inside {a : Int} (h : InMemory a) (v : Int) :
    s.memWrite a v = .ok (s.setWord a v) := if_pos h

theorem State.memWrite_outside {a : Int} (h : ¬ InMemory a) (v : Int) :
    s.memWrite a v = .error (.outOfBounds a) := if_neg h

/-- `MemRead` is the port's read, and its `oob` is the fault (spec/20_memory.md R56). -/
theorem State.memRead_eq_port (a : Int) (w : Int) :
    s.memRead a =
      match (s.port { addr := a, we := false, wdata := w }).2 with
      | { rdata := some v, oob := _ } => .ok v
      | { rdata := none, oob := _ } => .error (.outOfBounds a) := by
  by_cases h : InMemory a
  · simp only [State.memRead_inside h, State.port, if_pos h]; rfl
  · simp only [State.memRead_outside h, State.port, if_neg h]

/-- `MemWrite` is the port's write, and its `oob` is the fault (spec/20_memory.md R56). -/
theorem State.memWrite_eq_port (a v : Int) :
    s.memWrite a v =
      let r := s.port { addr := a, we := true, wdata := v }
      if r.2.oob then .error (.outOfBounds a) else .ok r.1 := by
  by_cases h : InMemory a
  · simp only [State.memWrite_inside h, State.port, if_pos h]; rfl
  · simp only [State.memWrite_outside h, State.port, if_neg h]; rfl

/-- `peek` is the word inside memory. -/
theorem State.peek_inside {a : Int} (h : InMemory a) : s.peek a = s.word a := if_pos h

theorem State.peek_outside {a : Int} (h : ¬ InMemory a) : s.peek a = 0 := if_neg h

/-! ### The stack -/

theorem State.push_inside (h : InMemory s.pushAddr) (v : Int) :
    s.push v = .ok ((s.setWord s.pushAddr v).setSp s.pushAddr) := by
  simp only [State.push, State.memWrite_inside h, ok_then, return_eq_ok]

theorem State.push_outside (h : ¬ InMemory s.pushAddr) (v : Int) :
    s.push v = .error (.outOfBounds s.pushAddr) := by
  simp only [State.push, State.memWrite_outside h, error_then]

theorem State.pop_empty (h : Params.stackBase ≤ s.sp) : s.pop = .error (.stackUnderflow s.sp) :=
  if_pos h

theorem State.pop_live (h : 0 ≤ s.sp) (h' : s.sp < Params.stackBase) :
    s.pop = .ok (s.word s.sp, s.setSp (s.sp + 1)) := by
  have hin : InMemory s.sp := inMemory_iff.2 ⟨h, by simp at *; omega⟩
  simp only [State.pop, not_le.mpr h', if_false, State.memRead_inside hin, ok_then,
    return_eq_ok]

theorem State.pop_negative (h : s.sp < 0) : s.pop = .error (.outOfBounds s.sp) := by
  have hnot : ¬ Params.stackBase ≤ s.sp := by simp; omega
  have hout : ¬ InMemory s.sp := fun hin => by have := hin.1; omega
  simp only [State.pop, hnot, if_false, State.memRead_outside hout, error_then]

/-! ### Committing and raising -/

@[simp] theorem State.commit_ok : s.commit (.ok t) = .next t := rfl

@[simp] theorem State.commit_error (x : Trap) : s.commit (.error x) = .fault (raiseFault x s) := rfl

@[simp] theorem raiseFault_after (x : Trap) : (raiseFault x s).after = s := by cases x <;> rfl

/-- A committed operation that ends in a fault leaves the state it began with. -/
theorem State.commit_fault {r : Except Trap State} {f : Fault} (h : s.commit r = .fault f) :
    f.after = s := by
  cases r with
  | ok t => simp at h
  | error x => simp at h; rw [← h, raiseFault_after]

theorem State.commit_never_refuses (r : Except Trap State) (q : Refusal) :
    s.commit r ≠ .refused q := by
  cases r <;> simp

/-! ### The operand forms -/

theorem State.aluFromMemory_inside {ea : Int} (h : InMemory ea) (op : AluOp) :
    s.aluFromMemory op ea = .next (s.aluToAc op (s.word ea)).advance := by
  simp only [State.aluFromMemory, State.memRead_inside h, ok_then, return_eq_ok, State.commit_ok]

theorem State.aluFromMemory_outside {ea : Int} (h : ¬ InMemory ea) (op : AluOp) :
    s.aluFromMemory op ea = .fault (.outOfBounds ea s) := by
  simp only [State.aluFromMemory, State.memRead_outside h, error_then, State.commit_error, raiseFault]

theorem State.storeAc_inside {ea : Int} (h : InMemory ea) :
    s.storeAc ea = .next (s.setWord ea s.ac).withoutAlu.advance := by
  simp only [State.storeAc, State.memWrite_inside h, ok_then, return_eq_ok, State.commit_ok]

theorem State.storeAc_outside {ea : Int} (h : ¬ InMemory ea) :
    s.storeAc ea = .fault (.outOfBounds ea s) := by
  simp only [State.storeAc, State.memWrite_outside h, error_then, State.commit_error, raiseFault]

theorem State.pushAndAdvance_inside (h : InMemory s.pushAddr) (v : Int) :
    s.pushAndAdvance v =
      .next ((s.setWord s.pushAddr v).setSp s.pushAddr).withoutAlu.advance := by
  simp only [State.pushAndAdvance, State.push_inside h, ok_then, return_eq_ok, State.commit_ok]

theorem State.pushAndAdvance_outside (h : ¬ InMemory s.pushAddr) (v : Int) :
    s.pushAndAdvance v = .fault (.outOfBounds s.pushAddr s) := by
  simp only [State.pushAndAdvance, State.push_outside h, error_then, State.commit_error, raiseFault]

/-- A load, an add or a subtract that completes read inside memory. -/
theorem State.aluFromMemory_next {op : AluOp} {ea : Int} (h : s.aluFromMemory op ea = .next t) :
    InMemory ea ∧ t = (s.aluToAc op (s.word ea)).advance := by
  by_cases hin : InMemory ea
  · rw [State.aluFromMemory_inside hin] at h
    cases h
    exact ⟨hin, rfl⟩
  · rw [State.aluFromMemory_outside hin] at h
    cases h

/-- A store of AC that completes wrote inside memory. -/
theorem State.storeAc_next {ea : Int} (h : s.storeAc ea = .next t) :
    InMemory ea ∧ t = (s.setWord ea s.ac).withoutAlu.advance := by
  by_cases hin : InMemory ea
  · rw [State.storeAc_inside hin] at h
    cases h
    exact ⟨hin, rfl⟩
  · rw [State.storeAc_outside hin] at h
    cases h

theorem State.jumpIf_eq (c : Bool) (a : Nat) :
    s.jumpIf c a = .next (s.withoutAlu.branch c a) := rfl

/-- A direct basic address is always inside memory (spec/41_direct.md R140). -/
theorem inMemory_directEa {a : Nat} (h : a ≤ 4095) : InMemory (directEa a) := by
  simp only [inMemory_iff, directEa]
  omega

/-! ### The fetch -/

/-- The state a fetch leaves (R112): IR holds `M[PC]`, and the unspecified registers are drawn. -/
theorem State.fetch_inside (h : InMemory s.pc) :
    s.fetch = .ok (s.setIr (s.word s.pc)) := by
  simp only [State.fetch, State.memRead_inside h, ok_then, return_eq_ok]

theorem State.fetch_outside (h : ¬ InMemory s.pc) : s.fetch = .error (.outOfBounds s.pc) := by
  simp only [State.fetch, State.memRead_outside h, error_then]

end Sys2Proof.Machine
end

