-- ==== Sys2Proof/Laws/Exec.lean ====
section
/-! SUPPORT. What `exec` does with each instruction, over the shared operations: one equation for an
instruction of one operand form, and the cases of the instructions that use the stack or SWAP. -/

namespace Sys2Proof.Machine

variable {s : State}

/-! ### One operand form -/

theorem exec_lodd (a : Nat) : exec (.lodd a) s = s.aluFromMemory .pass (directEa a) := rfl
theorem exec_addd (a : Nat) : exec (.addd a) s = s.aluFromMemory .add (directEa a) := rfl
theorem exec_subd (a : Nat) : exec (.subd a) s = s.aluFromMemory .sub (directEa a) := rfl
theorem exec_stod (a : Nat) : exec (.stod a) s = s.storeAc (directEa a) := rfl
theorem exec_loco (k : Int) :
    exec (.loco k) s = Host.Outcome.next (s.aluToAc .pass k).advance := rfl
theorem exec_lodl (off : Nat) :
    exec (.lodl off) s = s.aluFromMemory .pass (s.localEa off) := rfl
theorem exec_addl (off : Nat) :
    exec (.addl off) s = s.aluFromMemory .add (s.localEa off) := rfl
theorem exec_subl (off : Nat) :
    exec (.subl off) s = s.aluFromMemory .sub (s.localEa off) := rfl
theorem exec_stol (off : Nat) : exec (.stol off) s = s.storeAc (s.localEa off) := rfl
theorem exec_jump (a : Nat) : exec (.jump a) s = s.jumpIf true a := rfl
theorem exec_jpos (a : Nat) : exec (.jpos a) s = s.jumpIf (isPositive s.ac) a := rfl
theorem exec_jzer (a : Nat) : exec (.jzer a) s = s.jumpIf (isZero s.ac) a := rfl
theorem exec_jneg (a : Nat) : exec (.jneg a) s = s.jumpIf (isNegative s.ac) a := rfl
theorem exec_jnze (a : Nat) : exec (.jnze a) s = s.jumpIf (isNonzero s.ac) a := rfl
theorem exec_push (k : Nat) : exec (.push k) s = s.pushAndAdvance k := rfl
theorem exec_insp (n : Nat) :
    exec (.insp n) s = Host.Outcome.next (s.setSp (s.sp - n)).withoutAlu.advance := rfl
theorem exec_desp (n : Nat) :
    exec (.desp n) s = Host.Outcome.next (s.setSp (s.sp + n)).withoutAlu.advance := rfl

/-! ### CALL and PSHI -/

theorem exec_call_inside (h : InMemory s.pushAddr) (a : Nat) :
    exec (.call a) s =
      .next (((s.setWord s.pushAddr (s.pc + 1)).setSp s.pushAddr).withoutAlu.goTo a) := by
  simp only [exec, execCall, State.push_inside h, Params.callReturnOffset,
    ok_then, return_eq_ok, State.commit_ok]

theorem exec_call_outside (h : ¬ InMemory s.pushAddr) (a : Nat) :
    exec (.call a) s = .fault (.outOfBounds s.pushAddr s) := by
  simp only [exec, execCall, State.push_outside h,
    error_then, State.commit_error, raiseFault]

theorem exec_pshi_inside {a : Nat} (ha : InMemory (directEa a)) (h : InMemory s.pushAddr) :
    exec (.pshi a) s =
      .next ((s.setWord s.pushAddr (s.word (directEa a))).setSp s.pushAddr).withoutAlu.advance := by
  simp only [exec, execPshi, State.memRead_inside ha, State.push_inside h,
    ok_then, return_eq_ok, State.commit_ok]

theorem exec_pshi_outside {a : Nat} (ha : InMemory (directEa a)) (h : ¬ InMemory s.pushAddr) :
    exec (.pshi a) s = .fault (.outOfBounds s.pushAddr s) := by
  simp only [exec, execPshi, State.memRead_inside ha, State.push_outside h,
    ok_then, error_then, State.commit_error, raiseFault]

/-- Only an operand that no encoding carries gets here (log entry 20). -/
theorem exec_pshi_operand_outside {a : Nat} (ha : ¬ InMemory (directEa a)) :
    exec (.pshi a) s = .fault (.outOfBounds (directEa a) s) := by
  simp only [exec, execPshi, State.memRead_outside ha,
    error_then, State.commit_error, raiseFault]

/-! ### RETN, POP and POPI -/

theorem exec_retn_live (h : 0 ≤ s.sp) (h' : s.sp < Params.stackBase) :
    exec .retn s = .next ((s.setSp (s.sp + 1)).withoutAlu.goTo (s.word s.sp)) := by
  simp only [exec, execRetn, State.pop_live h h',
    ok_then, return_eq_ok, State.commit_ok]

theorem exec_retn_empty (h : Params.stackBase ≤ s.sp) :
    exec .retn s = .fault (.stackUnderflow s.sp s) := by
  simp only [exec, execRetn, State.pop_empty h,
    error_then, State.commit_error, raiseFault]

theorem exec_retn_negative (h : s.sp < 0) : exec .retn s = .fault (.outOfBounds s.sp s) := by
  simp only [exec, execRetn, State.pop_negative h,
    error_then, State.commit_error, raiseFault]

theorem exec_pop_live (h : 0 ≤ s.sp) (h' : s.sp < Params.stackBase) (y : Nat) :
    exec (.pop y) s = .next ((s.setSp (s.sp + 1)).aluToAc .pass (s.word s.sp)).advance := by
  simp only [exec, execPop, State.pop_live h h',
    ok_then, return_eq_ok, State.commit_ok]

theorem exec_pop_empty (h : Params.stackBase ≤ s.sp) (y : Nat) :
    exec (.pop y) s = .fault (.stackUnderflow s.sp s) := by
  simp only [exec, execPop, State.pop_empty h,
    error_then, State.commit_error, raiseFault]

theorem exec_pop_negative (h : s.sp < 0) (y : Nat) :
    exec (.pop y) s = .fault (.outOfBounds s.sp s) := by
  simp only [exec, execPop, State.pop_negative h,
    error_then, State.commit_error, raiseFault]

theorem exec_popi_live (h : 0 ≤ s.sp) (h' : s.sp < Params.stackBase) {y : Nat}
    (hy : InMemory (directEa y)) :
    exec (.popi y) s =
      .next ((s.setSp (s.sp + 1)).setWord (directEa y) (s.word s.sp)).withoutAlu.advance := by
  simp only [exec, execPopi, State.pop_live h h', State.memWrite_inside hy,
    ok_then, return_eq_ok, State.commit_ok]

/-- Only an operand that no encoding carries gets here (log entry 20). -/
theorem exec_popi_operand_outside (h : 0 ≤ s.sp) (h' : s.sp < Params.stackBase) {y : Nat}
    (hy : ¬ InMemory (directEa y)) :
    exec (.popi y) s = .fault (.outOfBounds (directEa y) s) := by
  simp only [exec, execPopi, State.pop_live h h', State.memWrite_outside hy,
    ok_then, error_then, State.commit_error, raiseFault]

theorem exec_popi_empty (h : Params.stackBase ≤ s.sp) (y : Nat) :
    exec (.popi y) s = .fault (.stackUnderflow s.sp s) := by
  simp only [exec, execPopi, State.pop_empty h,
    error_then, State.commit_error, raiseFault]

theorem exec_popi_negative (h : s.sp < 0) (y : Nat) :
    exec (.popi y) s = .fault (.outOfBounds s.sp s) := by
  simp only [exec, execPopi, State.pop_negative h,
    error_then, State.commit_error, raiseFault]

/-! ### SWAP -/

theorem exec_swap_inside {a : Nat} (ha : InMemory (directEa a)) :
    exec (.swap a) s =
      .next ((s.setWord (directEa a) s.ac).aluToAc .pass (s.word (directEa a))).advance := by
  simp only [exec, execSwap, State.memRead_inside ha, State.memWrite_inside ha,
    ok_then, return_eq_ok, State.commit_ok]

/-- Only an operand that no encoding carries gets here (log entry 20). -/
theorem exec_swap_operand_outside {a : Nat} (ha : ¬ InMemory (directEa a)) :
    exec (.swap a) s = .fault (.outOfBounds (directEa a) s) := by
  simp only [exec, execSwap, State.memRead_outside ha,
    error_then, State.commit_error, raiseFault]

end Sys2Proof.Machine
end

