-- ==== Sys2Proof/Laws/PerInstr.lean ====
section
/-! SUPPORT. One statement per instruction, as syntax: bits 15:12 of its word tell its format
(spec/30_encoding.md R71 to R73). -/

namespace Sys2Proof.Laws.EncodingFormat

/-- A basic opcode's word carries its code in bits 15:12, which is never 0xF; an extended opcode's word
carries 0xF there and its code in bits 11:8. -/
def Statement (i : Instr) : Prop :=
  match i.mnemonic with
  | .basic b => opField (encode i) = basicCode b ∧ opField (encode i) ≠ extMark
  | .ext e => opField (encode i) = extMark ∧ subField (encode i) = extCode e

theorem basicCode_ne_extMark (b : BasicOp) : basicCode b ≠ extMark := by cases b <;> decide

/-- Every basic word has the basic format. -/
theorem basic_format (b : BasicOp) (k : Int) :
    opField (basicWord b k) = basicCode b ∧ opField (basicWord b k) ≠ extMark := by
  rw [opField_basicWord]; exact ⟨rfl, basicCode_ne_extMark b⟩

/-- Every extended word has the extended format. -/
theorem ext_format (e : ExtOp) (k : Int) :
    opField (extWord e k) = extMark ∧ subField (extWord e k) = extCode e :=
  ⟨opField_extWord e k, subField_extWord e k⟩

theorem lodd (addr : Nat) : Statement (.lodd addr) := basic_format .lodd addr
theorem stod (addr : Nat) : Statement (.stod addr) := basic_format .stod addr
theorem addd (addr : Nat) : Statement (.addd addr) := basic_format .addd addr
theorem subd (addr : Nat) : Statement (.subd addr) := basic_format .subd addr
theorem jpos (addr : Nat) : Statement (.jpos addr) := basic_format .jpos addr
theorem jzer (addr : Nat) : Statement (.jzer addr) := basic_format .jzer addr
theorem jump (addr : Nat) : Statement (.jump addr) := basic_format .jump addr
theorem loco (k : Int) : Statement (.loco k) := basic_format .loco k
theorem lodl (off : Nat) : Statement (.lodl off) := basic_format .lodl off
theorem stol (off : Nat) : Statement (.stol off) := basic_format .stol off
theorem addl (off : Nat) : Statement (.addl off) := basic_format .addl off
theorem subl (off : Nat) : Statement (.subl off) := basic_format .subl off
theorem jneg (addr : Nat) : Statement (.jneg addr) := basic_format .jneg addr
theorem jnze (addr : Nat) : Statement (.jnze addr) := basic_format .jnze addr
theorem call (addr : Nat) : Statement (.call addr) := basic_format .call addr
theorem pshi (addr : Nat) : Statement (.pshi addr) := ext_format .pshi addr
theorem popi (addr : Nat) : Statement (.popi addr) := ext_format .popi addr
theorem push (k : Nat) : Statement (.push k) := ext_format .push k
theorem pop (y : Nat) : Statement (.pop y) := ext_format .pop y
theorem retn : Statement .retn := ext_format .retn 0
theorem swap (addr : Nat) : Statement (.swap addr) := ext_format .swap addr
theorem insp (n : Nat) : Statement (.insp n) := ext_format .insp n
theorem desp (n : Nat) : Statement (.desp n) := ext_format .desp n

end Sys2Proof.Laws.EncodingFormat
end

