-- ==== Sys2Proof/Laws/Run.lean ====
section
/-! SUPPORT. What a finished run hands to the host: the condition its last step raised, with no state in it
that is running. -/

namespace Sys2Proof.Machine

variable {s t : State} {f : Fault} {st : Status}

@[simp] theorem Fault.idle_code : f.idle.code = f.code := by cases f <;> rfl

@[simp] theorem Fault.idle_info : f.idle.info = f.info := by cases f <;> rfl

@[simp] theorem Fault.idle_after : f.idle.after = f.after.idle := by cases f <;> rfl

@[simp] theorem Status.idle_code : st.idle.code = st.code := by cases st <;> simp [Status.idle, Status.code]

@[simp] theorem Status.idle_info : st.idle.info = st.info := by cases st <;> simp [Status.idle, Status.info]

@[simp] theorem Status.idle_success : st.idle.success = st.success := by
  cases st with
  | stopped f => cases f <;> rfl
  | ok => rfl
  | maxCyclesExceeded n => rfl
  | refused r => rfl

/-- A run is its loop on the started state, everything in the result Idle. -/
theorem State.run_eq (s : State) (n : Int) :
    s.run n = ((s.startRun.runLoop n n.toNat).1.idle, (s.startRun.runLoop n n.toNat).2.idle) := rfl

/-- One round of the loop: another step after `Ok`, else the call's own result. -/
theorem State.runLoop_succ (m : Int) (n : Nat) (s : State) :
    s.runLoop m (n + 1) =
      if s.stepCall.2 = .ok then s.stepCall.1.runLoop m n else s.stepCall := by
  rw [State.runLoop]
  rcases h : s.stepCall with ⟨t, st⟩
  cases st <;> simp

/-- A condition a run returns carries an Idle state (spec/10_state.md R33). -/
theorem State.run_stopped_idle {n : Int} (h : (s.run n).2 = .stopped f) :
    f.after.running = false ∧ f.after.mode = .idle := by
  rw [State.run_eq] at h
  cases hst : (s.startRun.runLoop n n.toNat).2 with
  | stopped g =>
    simp only [hst, Status.idle, Status.stopped.injEq] at h
    rw [← h, Fault.idle_after]
    exact ⟨rfl, rfl⟩
  | ok => simp [hst, Status.idle] at h
  | maxCyclesExceeded m => simp [hst, Status.idle] at h
  | refused r => simp [hst, Status.idle] at h

end Sys2Proof.Machine
end

