-- ==== Sys2Proof/Laws/Step.lean ====
section
/-! SUPPORT. The step over its parts, the memory of a store in the terms of Sys2Proof/Safety.lean, and the
frame predicates' small lemmas. -/

namespace Sys2Proof.Machine

variable {s t : State}

/-- A word depends on memory alone. -/
theorem State.word_congr (h : s.mem = t.mem) (a : Int) : s.word a = t.word a := by
  simp only [State.word, h]

@[simp] theorem State.word_setIr (w a : Int) : (s.setIr w).word a = s.word a := rfl

/-- With PC inside memory a step is the halt check, then the decoded form on the fetched state. -/
theorem step_inside (h : InMemory s.pc) :
    step s =
      if s.word s.pc = 0 then .fault (.endOfProgram (s.setIr (s.word s.pc)))
      else issue (decode (s.word s.pc)) (s.setIr (s.word s.pc)) := by
  simp only [step, State.fetch_inside h, State.atSentinel, State.setIr_ir]
  by_cases h0 : s.word s.pc = 0 <;> simp [h0]

/-- Writing one word inside memory is a store in the sense of `StoresOnly`. -/
theorem State.storesOnly_of_setWord (hm : s.mem.wf = true) {a : Int} (ha : InMemory a) {v : Int}
    (h : t.mem = (s.setWord a v).mem) : s.StoresOnly t a v := by
  refine ⟨h ▸ State.wf_setWord hm ha v, ?_, fun b hb hne => ?_⟩
  · rw [State.word_congr h, State.word_setWord_same hm]
  · rw [State.word_congr h, State.word_setWord_other ha.1 hb.1 hne]

theorem State.onlyFetched_setIr (w : Int) : s.OnlyFetched (s.setIr w) := rfl

theorem State.onlyFetched_refl : s.OnlyFetched s := rfl

theorem State.Agree.refl (s : State) : s.Agree s :=
  ⟨rfl, rfl, rfl, rfl, rfl, rfl, rfl, rfl, rfl, rfl⟩

/-- `finish` changes nothing but a next state, which it retires. -/
theorem finish_next_iff {i : Instr} {o : Outcome} {u : State} :
    finish i o = .next u ↔ ∃ t, o = .next t ∧ u = t.retire i := by
  cases o <;> simp [finish, eq_comm]

theorem finish_fault_iff {i : Instr} {o : Outcome} {f : Fault} :
    finish i o = .fault f ↔ o = .fault f := by
  cases o <;> simp [finish]

end Sys2Proof.Machine
end

