-- ==== Sys2Proof/Tests/Slice0.lean ====
section
/-! SUPPORT. The model's own tests. Expected words and results are those of spec/95_test_vectors.md (its
row is named where a test is one) or worked out by hand from the rule named. A `test_witness_` theorem shows
that the hypotheses of the obligation it is named after can be met, at the ends of their ranges. -/

namespace Sys2Proof.Machine

/-- A state with these registers and memory, all else as after reset. -/
def sample (pc ac sp : Int) (mem : Memory) : State := { State.reset with pc := pc, ac := ac, sp := sp, mem := mem }

/-- The outcome is a next state of which `p` holds. -/
def goesTo (o : Outcome) (p : State → Bool) : Bool :=
  match o with
  | .next t => p t
  | .fault _ => false
  | .refused _ => false

/-- The outcome is a fault or halt with this code and information, PC `pc` and IR `ir` after it. -/
def faultsWith (o : Outcome) (code : Nat) (info : List Int) (pc ir : Int) : Bool :=
  match o with
  | .fault f => f.code == code && f.info == info && f.after.pc == pc && f.after.ir == ir
  | .next _ => false
  | .refused _ => false

/-! ### Well-formedness: each check refuses an operand its field cannot carry (R76) -/

theorem test_wf_basic : (Instr.lodd 4095).wf = true ∧ (Instr.lodd 4096).wf = false := by decide
theorem test_wf_ext : (Instr.push 255).wf = true ∧ (Instr.push 256).wf = false := by decide
theorem test_wf_imm : (Instr.loco (-2048)).wf = true ∧ (Instr.loco (-2049)).wf = false ∧
    (Instr.loco 2047).wf = true ∧ (Instr.loco 2048).wf = false := by decide
theorem test_wf_retn : Instr.retn.wf = true := by decide

/-! ### Decoding: a word of every constructor, written out bit by bit (R71 to R75; 95 part 2.1) -/

theorem test_decode_lodd : decode 0b0000000001100100 = .instr (.lodd 100) := by decide
theorem test_decode_stod : decode 0b0001000001100100 = .instr (.stod 100) := by decide
theorem test_decode_addd : decode 0b0010000001100100 = .instr (.addd 100) := by decide
theorem test_decode_subd : decode 0b0011000001100100 = .instr (.subd 100) := by decide
theorem test_decode_jpos : decode 0b0100000000000101 = .instr (.jpos 5) := by decide
theorem test_decode_jzer : decode 0b0101000000001010 = .instr (.jzer 10) := by decide
theorem test_decode_jump : decode 0b0110111111111111 = .instr (.jump 4095) := by decide
theorem test_decode_loco : decode 0b0111111111111111 = .instr (.loco (-1)) := by decide
theorem test_decode_lodl : decode 0b1000000000000001 = .instr (.lodl 1) := by decide
theorem test_decode_stol : decode 0b1001000000000010 = .instr (.stol 2) := by decide
theorem test_decode_addl : decode 0b1010111111111111 = .instr (.addl 4095) := by decide
theorem test_decode_subl : decode 0b1011000000000011 = .instr (.subl 3) := by decide
theorem test_decode_jneg : decode 0b1100000000000111 = .instr (.jneg 7) := by decide
theorem test_decode_jnze : decode 0b1101000000001000 = .instr (.jnze 8) := by decide
theorem test_decode_call : decode 0b1110000000010100 = .instr (.call 20) := by decide
theorem test_decode_pshi : decode 0b1111000001100100 = .instr (.pshi 100) := by decide
theorem test_decode_popi : decode 0b1111000101100101 = .instr (.popi 101) := by decide
theorem test_decode_push : decode 0b1111001000000111 = .instr (.push 7) := by decide
theorem test_decode_pop : decode 0b1111001100000101 = .instr (.pop 5) := by decide
theorem test_decode_retn : decode 0b1111010011111111 = .instr .retn := by decide
theorem test_decode_swap : decode 0b1111010100110010 = .instr (.swap 50) := by decide
theorem test_decode_insp : decode 0b1111110000000011 = .instr (.insp 3) := by decide
theorem test_decode_desp : decode 0b1111111000000011 = .instr (.desp 3) := by decide

/-- R79. -/
theorem test_decode_undef : decode 0xF600 = .undef 0x6 0x00 ∧ decode 0xFBFF = .undef 0xB 0xFF ∧
    decode 0xFFFF = .undef 0xF 0xFF := by decide

/-- R80, and the other setting of `WIDE_WORD_DECODE`: the low 16 bits of 70000 are 0x1170. -/
theorem test_decode_wide : decode (-1) = .illegal (-1) ∧ decode 0x10000 = .illegal 0x10000 ∧
    decodeUnder .low16 70000 = .instr (.stod 0x170) ∧ decodeUnder .low16 (-1) = .undef 0xF 0xFF := by decide

/-- The opcode table's numbering: a basic row, an extended row, and a word that is no instruction. -/
theorem test_table_word : decodeTableWord 16 0x7005 = some (.loco 5) ∧
    decodeTableWord 16 0xF305 = some (.pop 5) ∧ decodeTableWord 16 0xF600 = none := by decide

/-! ### Encoding (R82, R83; 95 part 2.1) -/

theorem test_encode_basic : encodeMnemonic (.basic .loco) (some (-1)) = 0x7FFF ∧
    encodeMnemonic (.basic .lodd) (some 5000) = 0x0388 ∧ encodeMnemonic (.basic .call) (some 20) = 0xE014 := by
  decide
theorem test_encode_ext : encodeMnemonic (.ext .push) (some 300) = 0xF22C ∧
    encodeMnemonic (.ext .pop) none = 0xF300 ∧ encodeMnemonic (.ext .retn) (some 9) = 0xF400 := by decide

/-- R82: the extended base and its prefix. -/
theorem test_ext_base : extBase = 0xF000 ∧ opField extBase = extMark := by decide

/-! ### Steps (95 parts 2.3 to 2.7) -/

/-- T1 and T2. -/
theorem test_step_halt : faultsWith (step State.reset) 1 [] 0 0 = true ∧
    faultsWith (step (sample 4096 0 4095 [])) 2 [4096] 4096 0 = true := by decide

/-- T4. -/
theorem test_step_last_word : goesTo (step (sample 4095 0 4095 [(4095, 0x7001)]))
    (fun t => t.ac == 1 && t.pc == 4096 && t.cycleCount == 1 && t.ir == 0x7001) = true := by decide

/-- T5 and T6. -/
theorem test_step_illegal : faultsWith (step (sample 0 0 4095 [(0, 0xF600)])) 4 [0, 0xF600] 0 0xF600 = true ∧
    faultsWith (step (sample 0 0 4095 [(0, 70000)])) 4 [0, 70000] 0 70000 = true := by decide

/-- An instruction placed where `step` fetches runs as the first one after reset. -/
theorem test_step_fetch_word : goesTo (step (State.reset.withFetchWord 16 0xF2FF))
    (fun t => t.word 4094 == 255 && t.sp == 4094 && t.pc == 1) = true := by decide

/-- D-2. -/
theorem test_lodd : goesTo (step (sample 0 0 4095 [(0, 0x0005), (5, 70000)]))
    (fun t => t.ac == 70000 && t.pc == 1) = true := by decide
/-- D-5 and D-6. -/
theorem test_stod : goesTo (step (sample 0 9 4095 [(0, 0x1FFF)])) (fun t => t.word 4095 == 9) = true ∧
    goesTo (step (sample 0 0 4095 [(0, 0x1000)])) (fun t => t.word 0 == 0 && t.mem == []) = true := by decide
/-- D-8. -/
theorem test_addd : goesTo (step (sample 0 32767 4095 [(0, 0x2005), (5, 1)]))
    (fun t => t.ac == 32768) = true := by decide
/-- D-11. -/
theorem test_subd : goesTo (step (sample 0 (-32768) 4095 [(0, 0x3005), (5, 1)]))
    (fun t => t.ac == -32769) = true := by decide
/-- D-16. -/
theorem test_loco : goesTo (step (sample 0 0 4095 [(0, 0x7800)])) (fun t => t.ac == -2048) = true := by decide
/-- L-3 and L-5. -/
theorem test_lodl : faultsWith (step (sample 0 0 4095 [(0, 0x8001)])) 2 [4096] 0 0x8001 = true ∧
    goesTo (exec (.lodl 1) (sample 0 0 (-1) [(0, 4)])) (fun t => t.ac == 4 && t.sp == -1) = true := by decide
/-- L-6 and L-7. -/
theorem test_stol : goesTo (step (sample 0 5 4090 [(0, 0x9002)])) (fun t => t.word 4092 == 5) = true ∧
    faultsWith (step (sample 0 5 1 [(0, 0x9FFF)])) 2 [4096] 0 0x9FFF = true := by decide
/-- L-11. -/
theorem test_addl : goesTo (step (sample 0 1 0 [(0, 0xAFFF), (4095, 1)])) (fun t => t.ac == 2) = true := by decide
/-- L-9. -/
theorem test_subl : goesTo (step (sample 0 4 4090 [(0, 0xB003), (4093, 10)])) (fun t => t.ac == -6) = true := by
  decide
/-- C-2. -/
theorem test_jump : goesTo (step (sample 0 0 4095 [(0, 0x6FFF)])) (fun t => t.pc == 4095) = true := by decide
/-- C-4 and C-7. -/
theorem test_jpos : goesTo (step (sample 4 0 4095 [(4, 0x4009)])) (fun t => t.pc == 9) = true ∧
    goesTo (step (sample 4 (-1) 4095 [(4, 0x4009)])) (fun t => t.pc == 5) = true := by decide
/-- C-5, the other setting of `JPOS_ON_ZERO`. -/
theorem test_jpos_not_on_zero : positiveUnder false 0 = false ∧ positiveUnder false 1 = true := by decide
/-- C-10 and C-11. -/
theorem test_jzer : goesTo (step (sample 1 0 4095 [(1, 0x500A)])) (fun t => t.pc == 10) = true ∧
    goesTo (step (sample 1 65536 4095 [(1, 0x500A)])) (fun t => t.pc == 2) = true := by decide
/-- C-12 and C-14. -/
theorem test_jneg : goesTo (step (sample 2 (-3) 4095 [(2, 0xC000)])) (fun t => t.pc == 0) = true ∧
    goesTo (step (sample 2 32768 4095 [(2, 0xC000)])) (fun t => t.pc == 3) = true := by decide
/-- C-15 and C-16. -/
theorem test_jnze : goesTo (step (sample 5 2 4095 [(5, 0xD002)])) (fun t => t.pc == 2) = true ∧
    goesTo (step (sample 5 0 4095 [(5, 0xD002)])) (fun t => t.pc == 6) = true := by decide
/-- C-19 and C-20. -/
theorem test_call : faultsWith (step (sample 3 0 0 [(3, 0xE014)])) 2 [-1] 3 0xE014 = true ∧
    goesTo (step (sample 4095 0 4095 [(4095, 0xE000)]))
      (fun t => t.word 4094 == 4096 && t.sp == 4094 && t.pc == 0) = true := by decide
/-- C-23 and C-24. -/
theorem test_retn : goesTo (step (sample 7 0 4094 [(7, 0xF400), (4094, 5000)]))
      (fun t => t.pc == 5000 && t.sp == 4095) = true ∧
    faultsWith (step (sample 7 0 (-2) [(7, 0xF400)])) 2 [-2] 7 0xF400 = true := by decide
/-- X-1 and X-2. -/
theorem test_pshi : goesTo (step (sample 0 0 4095 [(0, 0xF00A), (10, 42)]))
      (fun t => t.word 4094 == 42 && t.sp == 4094) = true ∧
    faultsWith (step (sample 0 0 0 [(0, 0xF00A)])) 2 [-1] 0 0xF00A = true := by decide
/-- X-3 and X-4. -/
theorem test_popi : goesTo (step (sample 0 0 4094 [(0, 0xF10B), (4094, 42)]))
      (fun t => t.word 11 == 42 && t.sp == 4095 && t.ac == 0) = true ∧
    faultsWith (step (sample 0 0 4095 [(0, 0xF10B)])) 3 [4095] 0 0xF10B = true := by decide
/-- X-7 and X-8. -/
theorem test_push : goesTo (step (sample 0 0 4096 [(0, 0xF205)]))
      (fun t => t.word 4095 == 5 && t.sp == 4095) = true ∧
    faultsWith (step (sample 0 0 4097 [(0, 0xF205)])) 2 [4096] 0 0xF205 = true := by decide
/-- X-13 and X-12. -/
theorem test_pop : goesTo (step (sample 0 0 4094 [(0, 0xF305), (4094, 7)]))
      (fun t => t.ac == 7 && t.sp == 4095 && t.word 4094 == 7) = true ∧
    faultsWith (step (sample 0 0 (-1) [(0, 0xF300)])) 2 [-1] 0 0xF300 = true := by decide
/-- X-15. -/
theorem test_swap : goesTo (step (sample 0 5 4095 [(0, 0xF500)]))
    (fun t => t.ac == 0xF500 && t.word 0 == 5) = true := by decide
/-- X-18. -/
theorem test_insp : goesTo (step (sample 0 0 100 [(0, 0xFCFF)])) (fun t => t.sp == -155) = true := by decide
/-- X-20. -/
theorem test_desp : goesTo (step (sample 0 0 4095 [(0, 0xFE01)])) (fun t => t.sp == 4096) = true := by decide

/-! ### The host's side (95 parts 1, 2.2 and 2.8) -/

theorem test_parse : parse "  aDdd   7  ".toList = .ok { mnemonic := .basic .addd, operand := some 7 } ∧
    parse "LODD 10 20".toList = .ok { mnemonic := .basic .lodd, operand := some 10 } ∧
    parse "POP".toList = .ok { mnemonic := .ext .pop, operand := none } ∧
    parse "LOCO -5".toList = .ok { mnemonic := .basic .loco, operand := some (-5) } := by decide
theorem test_parse_errors : parse "FOO 1".toList = .error .unknownInstruction ∧
    parse "LODD 0x10".toList = .error .invalidOperand ∧ parse "LODD 1.5".toList = .error .invalidOperand := by
  decide
theorem test_parse_program : parseProgram "LOCO 1\nFOO\n.data 5".toList =
    { valid := false, errors := [(2, .unknownInstruction), (3, .malformedData)], program := none } := by decide
theorem test_parse_data : (parseProgram "# c\n\nLOCO 1 # note\n.data 5 1\n.data 5 -2".toList).program =
    some { instructions := ["LOCO 1 # note".toList], data := [(5, -2)] } := by decide
theorem test_binary_listing :
    programToBinary { instructions := ["LOCO 10".toList, "FOO 1".toList, "POP".toList], data := [] } =
      ["0111000000001010".toList, "ERROR".toList, "1111001100000000".toList] := by decide

/-- R-1. -/
theorem test_load_data_over_sentinel :
    let e := (Controller.fresh.loadProgram { instructions := ["LOCO 1".toList], data := [(1, 7)] }).1.engine
    e.word 0 = 0x7001 ∧ e.word 1 = 7 ∧ (e.run 5).1.pc = 2 ∧ (e.run 5).1.cycleCount = 2 := by decide
/-- R-6. -/
theorem test_run_guard : ((sample 0 0 4095 [(0, 0x6000)]).run 3).2 = .maxCyclesExceeded 3 ∧
    ((sample 0 0 4095 [(0, 0x6000)]).run 3).1.cycleCount = 3 := by decide
/-- R33: no state a finished run hands out is running. -/
theorem test_run_leaves_nothing_running :
    (State.reset.run 1).1.running = false ∧
    (match (State.reset.run 1).2 with
      | .stopped f => f.after.running == false && f.code == 1
      | .ok => false
      | .maxCyclesExceeded _ => false
      | .refused _ => false) = true := by decide
/-- R88, log entry 37. -/
theorem test_data_prefix : parseData ".dataX 5 1".toList = .ok (5, 1) ∧
    parseData ".data100 42".toList = .error .malformedData := by decide
/-- R251. -/
theorem test_breakpoints : toggleBreakpoint 2 (setBreakpoint 2 []) = [{ line := 2, enabled := false }] ∧
    removeBreakpoint 2 (setBreakpoint 2 (setBreakpoint 3 [])) = [{ line := 3, enabled := true }] := by decide

/-! ### Witnesses: encoding -/

theorem test_witness_DecodeOfEncode : (Instr.lodd 0).wf = true ∧ (Instr.call 4095).wf = true ∧
    (Instr.loco (-2048)).wf = true ∧ (Instr.desp 255).wf = true ∧
    decode (wordValue (encode (.desp 255))) = .instr (.desp 255) := by decide
theorem test_witness_RoundTripOfMnemonics :
    decode (wordValue (encodeMnemonic (.basic .lodd) (some 4095))) = .instr (.lodd 4095) ∧
    decode (wordValue (encodeMnemonic (.basic .loco) (some 2047))) = .instr (.loco 2047) ∧
    decode (wordValue (encodeMnemonic (.basic .loco) (some 2048))) = .instr (.loco (-2048)) ∧
    decode (wordValue (encodeMnemonic (.basic .loco) (some 4095))) = .instr (.loco (-1)) ∧
    decode (wordValue (encodeMnemonic (.ext .pshi) (some 255))) = .instr (.pshi 255) ∧
    decode (wordValue (encodeMnemonic (.ext .retn) (some 9))) = .instr .retn ∧
    InMemory State.reset.pc ∧ State.reset.word State.reset.pc = 0 := by decide
theorem test_witness_EncoderReducesOperands : ExtOp.push ≠ .retn ∧
    wordValue (encodeMnemonic (.ext .push) (some (-1))) = 0xF000 + 2 * 256 + 255 := by decide
theorem test_witness_EncodeOfDecode : decode 0x7FFF = .instr (.loco (-1)) ∧ Instr.loco (-1) ≠ .retn ∧
    decode 0xF4FF = .instr .retn := by decide
theorem test_witness_OperandAssembly : (0 : Int) ≤ 0xFEFF ∧ (0xFEFF : Int) ≤ 0xFFFF ∧
    decode 0x0000 = .instr (.lodd 0) ∧ decode 0x77FF = .instr (.loco 2047) ∧
    decode 0x7800 = .instr (.loco (-2048)) ∧ decode 0xF400 = .instr .retn ∧
    decode 0xFEFF = .instr (.desp 255) := by decide
theorem test_witness_UnassignedWords : decode 0xF5FF = .instr (.swap 255) ∧ decode 0xF600 = .undef 6 0 ∧
    decode 0xFBFF = .undef 11 255 ∧ decode 0xFC00 = .instr (.insp 0) ∧ decode 0xFCFF = .instr (.insp 255) ∧
    decode 0xFD00 = .undef 13 0 ∧ decode 0xFDFF = .undef 13 255 ∧ decode 0xFE00 = .instr (.desp 0) ∧
    decode 0xFF00 = .undef 15 0 ∧ decode 0x10000 = .illegal 0x10000 ∧ decode (-1) = .illegal (-1) := by decide
theorem test_witness_FormatByTopBits : (0 : Int) ≤ 0xEFFF ∧ (0xF000 : Int) ≤ 0xFFFF ∧
    decode 0xEFFF = .instr (.call 4095) ∧ decode 0xF000 = .instr (.pshi 0) := by decide
theorem test_witness_ResetValues : InMemory 0 ∧ InMemory 4095 ∧ State.reset.word 4095 = 0 := by decide

/-! ### Witnesses: instructions -/

/-- The memories of these witnesses have the canonical form. -/
theorem test_witness_memories : ∀ m ∈ [([] : Memory), [(0, 6)], [(0, 8)], [(0, 5)], [(5, 8)], [(255, 8)], [(4094, 8)],
    [(4095, 6)], [(4094, 3)], [(4094, 0x1FFF), (4095, 5)], [(4094, 0x1FFF)], [(4095, 0x7001)]],
    Memory.wf m = true := by decide

theorem test_witness_DirectLoadAddSubtract :
    goesTo (exec (.lodd 4095) (sample 9 1 4095 [(4095, 6)])) (fun t => t.ac == 6 && t.pc == 10) = true ∧
    goesTo (exec (.addd 0) (sample 9 1 4095 [(0, 6)])) (fun t => t.ac == 7) = true ∧
    goesTo (exec (.subd 4095) (sample 9 1 4095 [(4095, 6)])) (fun t => t.ac == -5) = true := by decide
theorem test_witness_StodStoresAc : Memory.wf [(4095, 6)] = true ∧
    goesTo (exec (.stod 4095) (sample 9 1 4095 [(4095, 6)])) (fun t => t.word 4095 == 1) = true := by decide
theorem test_witness_LocoLoadsConstant :
    goesTo (exec (.loco (-2048)) State.reset) (fun t => t.ac == -2048 && t.pc == 1) = true ∧
    goesTo (exec (.loco 2047) State.reset) (fun t => t.ac == 2047) = true := by decide
theorem test_witness_LocalLoadAddSubtract : InMemory ((sample 0 1 0 []).sp + 4095) ∧
    goesTo (exec (.lodl 4095) (sample 0 1 0 [(4095, 6)])) (fun t => t.ac == 6) = true ∧
    goesTo (exec (.addl 4095) (sample 0 1 0 [(4095, 6)])) (fun t => t.ac == 7) = true ∧
    goesTo (exec (.subl 1) (sample 0 1 (-1) [(0, 6)])) (fun t => t.ac == -5) = true := by decide
theorem test_witness_StolStoresAc : InMemory ((sample 0 1 (-1) []).localEa 1) ∧
    goesTo (exec (.stol 1) (sample 0 1 (-1) [])) (fun t => t.word 0 == 1) = true := by decide
theorem test_witness_LocalAccessOutsideMemory : ¬ InMemory ((sample 0 1 4095 []).sp + 1) ∧
    ¬ InMemory ((sample 0 1 (-1) []).sp + 0) ∧
    faultsWith (exec (.stol 1) (sample 0 1 4095 [])) 2 [4096] 0 0 = true := by decide
theorem test_witness_JumpGoesToTarget :
    goesTo (exec (.jump 4095) State.reset) (fun t => t.pc == 4095) = true := by decide
theorem test_witness_ConditionalJumps :
    goesTo (exec (.jpos 4095) (sample 0 0 4095 [])) (fun t => t.pc == 4095) = true ∧
    goesTo (exec (.jzer 4095) (sample 0 0 4095 [])) (fun t => t.pc == 4095) = true ∧
    goesTo (exec (.jneg 4095) (sample 0 0 4095 [])) (fun t => t.pc == 1) = true ∧
    goesTo (exec (.jnze 4095) (sample 0 0 4095 [])) (fun t => t.pc == 1) = true := by decide
theorem test_witness_CallPushesReturnAddress :
    InMemory (sample 0 0 1 []).pushAddr ∧ InMemory (sample 0 0 4096 []).pushAddr ∧
    goesTo (exec (.call 4095) (sample 3 0 1 [])) (fun t => t.word 0 == 4 && t.sp == 0) = true ∧
    goesTo (exec (.call 0) (sample 3 0 4096 [])) (fun t => t.word 4095 == 4 && t.sp == 4095) = true := by decide
theorem test_witness_RetnPopsTarget :
    goesTo (exec .retn (sample 3 0 0 [(0, 8)])) (fun t => t.pc == 8 && t.sp == 1) = true ∧
    goesTo (exec .retn (sample 3 0 4094 [])) (fun t => t.pc == 0 && t.sp == 4095) = true := by decide
theorem test_witness_PushesStoreBelowSp :
    goesTo (exec (.pshi 255) (sample 3 0 1 [(255, 8)])) (fun t => t.word 0 == 8) = true ∧
    goesTo (exec (.push 255) (sample 3 0 4096 [])) (fun t => t.word 4095 == 255) = true := by decide
theorem test_witness_PushOutsideMemory : ¬ InMemory ((sample 0 0 0 []).sp - 1) ∧
    ¬ InMemory ((sample 0 0 4097 []).sp - 1) ∧
    faultsWith (exec (.pshi 255) (sample 0 0 4097 [])) 2 [4096] 0 0 = true := by decide
theorem test_witness_PopsTakeTopOfStack :
    goesTo (exec (.popi 255) (sample 3 0 0 [(0, 8)])) (fun t => t.word 255 == 8 && t.sp == 1) = true ∧
    goesTo (exec (.pop 255) (sample 3 0 4094 [(4094, 8)])) (fun t => t.ac == 8) = true := by decide
theorem test_witness_PopRule :
    faultsWith (exec (.popi 0) (sample 0 0 4095 [])) 3 [4095] 0 0 = true ∧
    faultsWith (exec (.pop 255) (sample 0 0 (-1) [])) 2 [-1] 0 0 = true ∧
    goesTo (exec (.popi 0) (sample 0 0 0 [(0, 8)])) (fun t => t.word 0 == 8 && t.sp == 1) = true ∧
    goesTo (exec .retn (sample 0 0 4094 [(4094, 8)])) (fun t => t.pc == 8) = true := by decide
theorem test_witness_SwapExchanges :
    goesTo (exec (.swap 255) (sample 0 3 9 [(255, 8)])) (fun t => t.ac == 8 && t.word 255 == 3) = true := by decide
theorem test_witness_StackPointerAdjustment :
    goesTo (exec (.insp 255) (sample 0 3 9 [])) (fun t => t.sp == -246) = true ∧
    goesTo (exec (.desp 255) (sample 0 3 4095 [])) (fun t => t.sp == 4350) = true := by decide
theorem test_witness_AluTraceOfAluInstructions :
    ∀ i ∈ [Instr.addd 5, .subd 5, .addl 5, .subl 5, .lodd 5, .lodl 5, .loco 7, .pop 5, .swap 5],
      goesTo (exec i (sample 0 3 0 [(5, 8)]))
        (fun t => t.aluTrace.result == t.ac && t.aluTrace.operation.isSome) = true := by decide

/-! ### Witnesses: all instructions -/

theorem test_witness_MemoryFrame :
    goesTo (exec (.stod 4095) (sample 0 3 9 [])) (fun t => t.word 4095 == 3) = true ∧
    storeAddr (.stod 4095) (sample 0 3 9 []) ≠ some 0 ∧ InMemory 0 ∧
    goesTo (exec (.lodd 4095) (sample 0 3 9 [])) (fun t => t.mem == []) = true ∧
    storeAddr (.lodd 4095) (sample 0 3 9 []) = none := by decide
theorem test_witness_RegisterFrame :
    goesTo (exec (.pop 0) (sample 0 3 9 [])) (fun t => t.ac != 3 && t.sp != 9) = true ∧
    goesTo (exec (.jump 0) (sample 0 3 9 [])) (fun t => t.pc != 1) = true := by decide
theorem test_witness_CompletesExactlyWhen :
    goesTo (exec (.popi 0) (sample 0 3 4094 [])) (fun _ => true) = true ∧
    goesTo (exec (.popi 0) (sample 0 3 4095 [])) (fun _ => true) = false ∧
    goesTo (exec (.pshi 0) (sample 0 3 0 [])) (fun _ => true) = false := by decide
theorem test_witness_FaultsOfInstructions : (Instr.pshi 255).wf = true ∧ Instr.retn.wf = true ∧
    faultsWith (exec (.pshi 255) (sample 0 3 0 [])) 2 [-1] 0 0 = true ∧
    faultsWith (exec .retn (sample 0 3 4095 [])) 3 [4095] 0 0 = true := by decide
theorem test_witness_ReturnAfterCall :
    ∀ sp ∈ [(1 : Int), 4095], goesTo (exec (.call 4095) (sample 5 0 sp []))
      (fun t => goesTo (exec .retn t) (fun u => u.pc == 6 && u.sp == sp)) = true := by decide
theorem test_witness_PushPopPairs :
    goesTo (execAll ([255, 0].flatMap fun k => [.push k, .pop 0]) (sample 5 9 1 []))
      (fun t => t.sp == 1 && t.pc == 9 && t.ac == 0) = true := by decide

/-! ### Witnesses: the step -/

theorem test_witness_StepRunsDecodedInstruction : InMemory (sample 4095 0 9 [(4095, 0x7001)]).pc ∧
    (sample 4095 0 9 [(4095, 0x7001)]).word 4095 ≠ 0 ∧ decode 0x7001 = .instr (.loco 1) := by decide
theorem test_witness_SentinelHalts : InMemory (sample 4095 0 9 []).pc ∧ (sample 4095 0 9 []).word 4095 = 0 ∧
    faultsWith (step (sample 4095 0 9 [])) 1 [] 4095 0 = true ∧
    goesTo (step (sample 4095 0 9 [(4095, 0x7001)])) (fun _ => true) = true := by decide
theorem test_witness_FetchOutsideMemory : faultsWith (step (sample (-1) 0 9 [])) 2 [-1] (-1) 0 = true ∧
    faultsWith (step (sample 4096 0 9 [])) 2 [4096] 4096 0 = true := by decide
theorem test_witness_IllegalWordsFault : decode ((sample 0 0 9 [(0, 0xFF00)]).word 0) = .undef 15 0 ∧
    decode ((sample 0 0 9 [(0, -1)]).word 0) = .illegal (-1) ∧ InMemory (sample 0 0 9 [(0, -1)]).pc := by decide
theorem test_witness_StepHasThreeOutcomes :
    goesTo (step (sample 0 0 9 [(0, 0x7001)])) (fun t => t.ac == 1) = true ∧
    faultsWith (step (sample 0 0 9 [])) 1 [] 0 0 = true ∧
    faultsWith (step (sample 4096 0 9 [])) 2 [4096] 4096 0 = true ∧
    faultsWith (step (sample 0 0 (-1) [(0, 0xF100)])) 2 [-1] 0 0xF100 = true ∧
    faultsWith (step (sample 0 0 4095 [(0, 0xF100)])) 3 [4095] 0 0xF100 = true ∧
    faultsWith (step (sample 0 0 9 [(0, 0xF600)])) 4 [0, 0xF600] 0 0xF600 = true := by decide
theorem test_witness_StepChecksInOrder : faultsWith (step (sample 4096 0 9 [])) 2 [4096] 4096 0 = true ∧
    faultsWith (step (sample 0 0 9 [])) 1 [] 0 0 = true ∧
    faultsWith (step (sample 0 0 9 [(0, -1)])) 4 [0, -1] 0 (-1) = true ∧
    faultsWith (step (sample 0 0 4095 [(0, 0xF400)])) 3 [4095] 0 0xF400 = true ∧
    faultsWith (step (sample 0 0 0 [(0, 0xF207)])) 2 [-1] 0 0xF207 = true := by decide
theorem test_witness_FaultsArePrecise : (∃ f, step (sample 0 0 0 [(0, 0xF207)]) = .fault f) ∧
    InMemory (sample 0 0 0 [(0, 0xF207)]).pc ∧ (∃ f, step (sample 4096 0 0 []) = .fault f) ∧
    ¬ InMemory (sample 4096 0 0 []).pc := ⟨⟨_, rfl⟩, by decide, ⟨_, rfl⟩, by decide⟩
theorem test_witness_FaultsRepeat : ∃ f, step (sample 0 0 4095 [(0, 0xF300)]) = .fault f ∧
    ∃ g, step f.after = .fault g ∧ g.code = 3 := ⟨_, rfl, _, rfl, rfl⟩
theorem test_witness_OkStepIsRecorded : ∃ t, step (sample 0 0 9 [(0, 0x7001)]) = .next t := ⟨_, rfl⟩
theorem test_witness_StoredWordIsFetchedNext :
    wordValue (encode (.stod 4095)) = 0x1FFF ∧
    goesTo (step (sample 4094 0 9 [(4094, 0x1FFF), (4095, 5)])) (fun t => faultsWith (step t) 1 [] 4095 0) = true ∧
    goesTo (step (sample 4094 0x7001 9 [(4094, 0x1FFF)]))
      (fun t => goesTo (step t) (fun u => u.ac == 1)) = true := by decide
theorem test_witness_StepKeepsInvariant : State.reset.Inv ∧ (State.reset.withFetchWord 16 0x7001).Inv ∧
    goesTo (step (State.reset.withFetchWord 16 0x7001)) (fun t => t.cycleCount == 1) = true ∧
    faultsWith (step State.reset) 1 [] 0 0 = true := by
  unfold State.Inv
  decide
theorem test_witness_UnspecifiedStateHasNoEffect :
    State.reset.Agree { State.reset with tir := 5, mar := 6, lastMicro := "x", draws := 7 } :=
  ⟨rfl, rfl, rfl, rfl, rfl, rfl, rfl, rfl, rfl, rfl⟩

/-! ### Witnesses: the host's operations -/

theorem test_witness_HostOperationsKeepInvariant :
    Controller.fresh.engine.Inv ∧ Controller.fresh.engine.IsIdle := by
  unfold State.Inv State.IsIdle
  decide
theorem test_witness_RunGuard : (0 : Int) ≤ 0 ∧
    ((sample 0 0 4095 [(0, 0x6000)]).run 1).2 = .maxCyclesExceeded 1 := by decide
theorem test_witness_RunStopsAtFirstFault : ∃ f, (State.reset.run 1).2 = .stopped f := ⟨_, rfl⟩
theorem test_witness_RunContinues : ((sample 0 0 4095 [(0, 0x7001)]).run 0).2 = .maxCyclesExceeded 0 ∧
    ((sample 0 0 4095 [(0, 0x7001)]).run 1).2 = .maxCyclesExceeded 1 ∧
    (((sample 0 0 4095 [(0, 0x7001)]).run 1).1.run 1).2.code = some 1 := by decide
theorem test_witness_LoadPlacesProgram : (0 : Int) ≤ 4094 ∧
    (4094 : Int) + (codeLines ["LOCO 1".toList, " ".toList]).length + 1 ≤ 4096 ∧
    (codeLines ["LOCO 1".toList, " ".toList]).map parse =
      [({ mnemonic := .basic .loco, operand := some 1 } : Parsed)].map .ok ∧
    fitsAt 4095 1 = false := by decide
theorem test_witness_FailedLoadIsPartial : (0 : Int) ≤ 4093 ∧
    (4093 : Int) + (codeLines ["LOCO 1".toList, "FOO".toList]).length + 1 ≤ 4096 ∧
    codeLines ["LOCO 1".toList, "FOO".toList] = ["LOCO 1".toList] ++ "FOO".toList :: [] ∧
    ["LOCO 1".toList].map parse = [({ mnemonic := .basic .loco, operand := some 1 } : Parsed)].map .ok ∧
    parse "FOO".toList = .error .unknownInstruction := by decide
/-- R-4. -/
theorem test_witness_LoadRangeIsChecked : Program.fits { instructions := [], data := [(4096, 1)] } = false ∧
    Program.fits { instructions := [], data := [(-1, 1)] } = false ∧
    Program.fits { instructions := [], data := [(4095, 1)] } = true ∧
    (State.reset.loadProgram ["POP".toList] 4095).2 = some .range ∧
    (State.reset.loadProgram ["POP".toList] (-1)).2 = some .range ∧
    (State.reset.loadProgram ["POP".toList] 4094).2 = none := by decide
theorem test_witness_DataIsWrittenLast :
    (Controller.fresh.loadProgram { instructions := ["LOCO 1".toList], data := [(1, 7)] }).2 = none ∧
    ([((1 : Int), (7 : Int))].map Prod.fst).Nodup := by decide
theorem test_witness_ParseReportsErrors : (2, AsmError.unknownInstruction) ∈ (parseProgram "#\nFOO".toList).errors ∧
    (1, AsmError.malformedData) ∈ (parseProgram ".data 5".toList).errors ∧
    (parseProgram " POP \n.data 5 1".toList).program =
      some { instructions := ["POP".toList], data := [(5, 1)] } := by decide
/-- S5. -/
theorem test_witness_ParsedProgramLoads : (parseProgram ".data 100 42\nLODD 100".toList).program =
    some { instructions := ["LODD 100".toList], data := [(100, 42)] } := by decide
theorem test_witness_HostMemoryAccess : Memory.wf [(100, 42)] = true ∧ InMemory 4095 ∧ ¬ InMemory 4096 ∧
    ¬ InMemory (-1) ∧ (sample 0 0 0 [(0, 5)]).memoryDump (-1) 2 = [0, 5] ∧
    (sample 0 0 0 [(4095, 5)]).peek 4095 = 5 := by decide
theorem test_witness_SnapshotStack : (sample 0 0 4095 []).snapshot.stack = [] ∧
    (sample 0 0 4094 [(4094, 3)]).snapshot.stack = [3] ∧
    goesTo (exec (.push 7) (sample 0 0 4094 [(4094, 3)])) (fun t => t.snapshot.stack == [7, 3]) = true := by decide
theorem test_witness_ContinueCountsLines :
    ∃ d st, Controller.continueFor { Controller.fresh with engine := sample 0 0 4095 [(0, 0x7001)] } 1 =
      some (d, st) ∧ st = .ok := ⟨_, _, rfl, rfl⟩

end Sys2Proof.Machine
end

section
/-! PROOFS. What a completed operation, a completed instruction and a completed step did: inversion lemmas, each
said once. -/

namespace Sys2Proof.Machine

variable {s t u : State}

/-! ### Inverting the shared operations -/

theorem then_eq_ok_iff {α β : Type} {x : Except Trap α} {f : α → Except Trap β} {b : β} :
    (x >>= f) = .ok b ↔ ∃ a, x = .ok a ∧ f a = .ok b := by
  cases x with
  | ok a => simp
  | error e => simp

theorem State.commit_next_iff {r : Except Trap State} : s.commit r = .next t ↔ r = .ok t := by
  cases r <;> simp

theorem State.memRead_eq_ok_iff {a v : Int} : s.memRead a = .ok v ↔ InMemory a ∧ s.word a = v := by
  by_cases h : InMemory a
  · rw [State.memRead_inside h, Except.ok.injEq, and_iff_right h]
  · rw [State.memRead_outside h]
    exact ⟨nofun, fun hin => absurd hin.1 h⟩

theorem State.memWrite_eq_ok_iff {a v : Int} :
    s.memWrite a v = .ok t ↔ InMemory a ∧ s.setWord a v = t := by
  by_cases h : InMemory a
  · rw [State.memWrite_inside h, Except.ok.injEq, and_iff_right h]
  · rw [State.memWrite_outside h]
    exact ⟨nofun, fun hin => absurd hin.1 h⟩

theorem State.push_eq_ok_iff {v : Int} :
    s.push v = .ok t ↔ InMemory s.pushAddr ∧ (s.setWord s.pushAddr v).setSp s.pushAddr = t := by
  simp [State.push, then_eq_ok_iff, State.memWrite_eq_ok_iff, and_assoc]

theorem State.pop_eq_ok_iff {p : Int × State} :
    s.pop = .ok p ↔ (0 ≤ s.sp ∧ s.sp < 4095) ∧ (s.word s.sp, s.setSp (s.sp + 1)) = p := by
  by_cases hlow : s.sp < 0
  · simp [State.pop_negative hlow, not_le.2 hlow]
  by_cases hhigh : (4095 : Int) ≤ s.sp
  · simp [State.pop_empty hhigh, not_lt.2 hhigh]
  · simp [State.pop_live (not_lt.1 hlow) (not_le.1 hhigh), not_lt.1 hlow, not_le.1 hhigh]

/-! ### Inverting the instructions -/

theorem exec_push_next {k : Nat} (h : exec (.push k) s = .next t) :
    InMemory s.pushAddr ∧ ((s.setWord s.pushAddr k).setSp s.pushAddr).withoutAlu.advance = t := by
  simpa [exec_push, State.pushAndAdvance, State.commit_next_iff, then_eq_ok_iff, State.push_eq_ok_iff,
    and_assoc] using h

theorem exec_call_next {a : Nat} (h : exec (.call a) s = .next t) :
    InMemory s.pushAddr ∧
      ((s.setWord s.pushAddr (s.pc + 1)).setSp s.pushAddr).withoutAlu.goTo a = t := by
  simpa [exec, execCall, State.commit_next_iff, then_eq_ok_iff, State.push_eq_ok_iff, and_assoc] using h

theorem exec_pshi_next {a : Nat} (h : exec (.pshi a) s = .next t) :
    InMemory (directEa a) ∧ InMemory s.pushAddr ∧
      ((s.setWord s.pushAddr (s.word (directEa a))).setSp s.pushAddr).withoutAlu.advance = t := by
  simpa [exec, execPshi, State.commit_next_iff, then_eq_ok_iff, State.memRead_eq_ok_iff,
    State.push_eq_ok_iff, and_assoc] using h

theorem exec_retn_next (h : exec .retn s = .next t) :
    (0 ≤ s.sp ∧ s.sp < 4095) ∧ (s.setSp (s.sp + 1)).withoutAlu.goTo (s.word s.sp) = t := by
  simpa [exec, execRetn, State.commit_next_iff, then_eq_ok_iff, State.pop_eq_ok_iff, and_assoc] using h

theorem exec_pop_next {y : Nat} (h : exec (.pop y) s = .next t) :
    (0 ≤ s.sp ∧ s.sp < 4095) ∧
      ((s.setSp (s.sp + 1)).aluToAc .pass (s.word s.sp)).advance = t := by
  simpa [exec, execPop, State.commit_next_iff, then_eq_ok_iff, State.pop_eq_ok_iff, and_assoc] using h

theorem exec_popi_next {a : Nat} (h : exec (.popi a) s = .next t) :
    (0 ≤ s.sp ∧ s.sp < 4095) ∧ InMemory (directEa a) ∧
      ((s.setSp (s.sp + 1)).setWord (directEa a) (s.word s.sp)).withoutAlu.advance = t := by
  simpa [exec, execPopi, State.commit_next_iff, then_eq_ok_iff, State.pop_eq_ok_iff,
    State.memWrite_eq_ok_iff, and_assoc] using h

theorem exec_swap_next {a : Nat} (h : exec (.swap a) s = .next t) :
    InMemory (directEa a) ∧
      ((s.setWord (directEa a) s.ac).aluToAc .pass (s.word (directEa a))).advance = t := by
  by_cases hin : InMemory (directEa a)
  · rw [exec_swap_inside hin] at h
    cases h
    exact ⟨hin, rfl⟩
  · rw [exec_swap_operand_outside hin] at h
    cases h

theorem State.jumpIf_next {c : Bool} {a : Nat} (h : s.jumpIf c a = .next t) :
    s.withoutAlu.goTo (if c then a else s.pc + 1) = t := by
  simpa [State.jumpIf_eq] using h

/-! ### What every instruction does -/

/-- Commit or nothing (R122): whatever an instruction computes, `exec` commits it. -/
theorem exec_eq_commit (i : Instr) (s : State) : ∃ r, exec i s = s.commit r := by
  cases i with
  | lodd | addd | subd | lodl | addl | subl | stod | stol | call | push | pshi | retn | pop | popi | swap =>
    exact ⟨_, rfl⟩
  | jump | jpos | jzer | jneg | jnze | loco | insp | desp => exact ⟨.ok _, rfl⟩

theorem exec_fault_after {i : Instr} {f : Fault} (h : exec i s = .fault f) : f.after = s := by
  obtain ⟨r, hr⟩ := exec_eq_commit i s
  exact State.commit_fault (hr ▸ h)

theorem exec_never_refuses (i : Instr) (s : State) (q : Refusal) : exec i s ≠ .refused q := by
  obtain ⟨r, hr⟩ := exec_eq_commit i s
  exact hr ▸ State.commit_never_refuses r q

/-- `t`'s memory is `s`'s, with a word written inside memory at `dest` if there is one. -/
def State.MemoryAfter (s t : State) (dest : Option Int) : Prop :=
  match dest with
  | none => t.mem = s.mem
  | some a => InMemory a ∧ ∃ v, t.mem = (s.setWord a v).mem

/-- The one inversion of `exec`: an instruction that completes changes no field but PC, AC, SP, memory and the
ALU trace, and writes memory only at the address R57 gives it, which is inside. -/
theorem exec_next {i : Instr} (h : exec i s = .next t) :
    s.Changes t t.pc t.ac t.sp t.mem ∧ s.MemoryAfter t (storeAddr i s) := by
  cases i with
  | lodd a | addd a | subd a | lodl a | addl a | subl a =>
    obtain ⟨-, rfl⟩ := State.aluFromMemory_next h
    exact ⟨rfl, rfl⟩
  | stod a | stol a =>
    obtain ⟨hin, rfl⟩ := State.storeAc_next h
    exact ⟨rfl, hin, _, rfl⟩
  | jump a | jpos a | jzer a | jneg a | jnze a =>
    obtain rfl := State.jumpIf_next h
    exact ⟨rfl, rfl⟩
  | loco k | insp n | desp n =>
    cases h
    exact ⟨rfl, rfl⟩
  | call a =>
    obtain ⟨hin, rfl⟩ := exec_call_next h
    exact ⟨rfl, hin, _, rfl⟩
  | push k =>
    obtain ⟨hin, rfl⟩ := exec_push_next h
    exact ⟨rfl, hin, _, rfl⟩
  | pshi a =>
    obtain ⟨-, hin, rfl⟩ := exec_pshi_next h
    exact ⟨rfl, hin, _, rfl⟩
  | retn =>
    obtain ⟨-, rfl⟩ := exec_retn_next h
    exact ⟨rfl, rfl⟩
  | pop y =>
    obtain ⟨-, rfl⟩ := exec_pop_next h
    exact ⟨rfl, rfl⟩
  | popi a =>
    obtain ⟨-, hin, rfl⟩ := exec_popi_next h
    exact ⟨rfl, hin, _, rfl⟩
  | swap a =>
    obtain ⟨hin, rfl⟩ := exec_swap_next h
    exact ⟨rfl, hin, _, rfl⟩

theorem State.MemoryAfter.wf {dest : Option Int} (h : s.MemoryAfter t dest) (hm : s.mem.wf = true) :
    t.mem.wf = true := by
  cases dest with
  | none => exact h ▸ hm
  | some a =>
    obtain ⟨hin, v, hmem⟩ := h
    exact hmem ▸ State.wf_setWord hm hin v

/-! ### What every step does -/

theorem issue_undef (sub : BitVec 4) (y : BitVec Params.extWidth) (s : State) :
    issue (.undef sub y) s = .fault (.illegalInstruction s.pc s.ir s) := rfl

theorem issue_illegal (w : Int) (s : State) :
    issue (.illegal w) s = .fault (.illegalInstruction s.pc w s) := rfl

theorem issue_next_iff {d : Decoded} :
    issue d s = .next u ↔ ∃ i t, d = .instr i ∧ exec i s = .next t ∧ u = t.retire i := by
  cases d with
  | instr i => simp [issue, finish_next_iff]
  | undef sub y => simp [issue_undef]
  | illegal w => simp [issue_illegal]

theorem issue_fault_after {d : Decoded} {f : Fault} (h : issue d s = .fault f) : f.after = s := by
  cases d with
  | instr i => exact exec_fault_after (finish_fault_iff.1 h)
  | undef sub y => cases h; rfl
  | illegal w => cases h; rfl

/-- With PC outside memory a step faults and changes nothing (R112, D8). -/
theorem step_outside (h : ¬ InMemory s.pc) : step s = .fault (.outOfBounds s.pc s) := by
  simp only [step, State.fetch_outside h, raiseFault]

/-- The one inversion of an `Ok` step (R112): it fetched an instruction's word inside memory, not the sentinel,
and the next state is the executed one retired. -/
theorem step_next_iff :
    step s = .next u ↔ InMemory s.pc ∧ s.word s.pc ≠ 0 ∧ ∃ i t, decode (s.word s.pc) = .instr i ∧
      exec i (s.setIr (s.word s.pc)) = .next t ∧ u = t.retire i := by
  by_cases hpc : InMemory s.pc
  · by_cases h0 : s.word s.pc = 0
    · simp [step_inside hpc, h0]
    · rw [step_inside hpc, if_neg h0, issue_next_iff, and_iff_right hpc, and_iff_right h0]
  · simp [step_outside hpc, hpc]

/-- A fault or halt leaves the state itself, from a PC outside memory, or the fetched state (R122, R239). -/
theorem step_fault_after {f : Fault} (h : step s = .fault f) :
    (¬ InMemory s.pc ∧ f.after = s) ∨ (InMemory s.pc ∧ f.after = s.setIr (s.word s.pc)) := by
  by_cases hpc : InMemory s.pc
  · refine .inr ⟨hpc, ?_⟩
    rw [step_inside hpc] at h
    split at h
    · cases h; rfl
    · exact issue_fault_after h
  · rw [step_outside hpc] at h
    cases h
    exact .inl ⟨hpc, rfl⟩

theorem step_fault_onlyFetched {f : Fault} (h : step s = .fault f) : s.OnlyFetched f.after := by
  obtain ⟨-, hf⟩ | ⟨-, hf⟩ := step_fault_after h
  · exact hf ▸ State.onlyFetched_refl
  · exact hf ▸ State.onlyFetched_setIr _

end Sys2Proof.Machine
end

section
/-! PROOFS. A decoded instruction is well-formed: its operand was assembled from its field (R76). -/

namespace Sys2Proof

theorem basicInstr_wf (b : BasicOp) (x : BitVec 12) : (basicInstr b x).wf = true := by
  have hx : x.toNat ≤ 4095 := Nat.le_of_lt_succ x.isLt
  cases b with
  | loco =>
    refine (fitsImm_iff _).2 ?_
    rw [sext_eq]
    split <;> omega
  | lodd | stod | addd | subd | jpos | jzer | jump | lodl | stol | addl | subl | jneg | jnze | call =>
    exact (fitsBasic_iff _).2 hx

theorem extInstr_wf (e : ExtOp) (y : BitVec 8) : (extInstr e y).wf = true := by
  have hy : y.toNat ≤ 255 := Nat.le_of_lt_succ y.isLt
  cases e with
  | retn => rfl
  | pshi | popi | push | pop | swap | insp | desp => exact (fitsExt_iff _).2 hy

theorem decodeWord_wf {w : InstrWord} {i : Instr} (h : decodeWord w = .instr i) : i.wf = true := by
  obtain ⟨b, -, hb⟩ | ⟨-, e, -, he⟩ | ⟨-, -, hu⟩ := decodeWord_cases w
  · cases hb.symm.trans h
    exact basicInstr_wf _ _
  · cases he.symm.trans h
    exact extInstr_wf _ _
  · cases hu.symm.trans h

/-- A word in 0..0xFFFF is decoded as the 16-bit word it spells. -/
theorem decode_inside {w : Int} (h : 0 ≤ w ∧ w ≤ 0xFFFF) : decode w = decodeWord (BitVec.ofInt 16 w) :=
  if_pos h

/-- A word outside 0..0xFFFF is ILLEGAL (R80, D10). -/
theorem decode_outside {w : Int} (h : ¬ (0 ≤ w ∧ w ≤ 0xFFFF)) : decode w = .illegal w := if_neg h

theorem decode_wf {w : Int} {i : Instr} (h : decode w = .instr i) : i.wf = true := by
  by_cases hw : 0 ≤ w ∧ w ≤ 0xFFFF
  · exact decodeWord_wf (decode_inside hw ▸ h)
  · rw [decode_outside hw] at h
    cases h

end Sys2Proof
end

section
/-! PROOFS. O44: the invariant, through the fetch, the instruction and its retirement. -/

namespace Sys2Proof.Machine

variable {s t : State}

theorem State.Inv.of_onlyFetched (hs : s.Inv) (h : s.OnlyFetched t) : t.Inv := by
  unfold State.OnlyFetched at h
  rw [h]
  exact hs

/-- An instruction writes none of the records the invariant speaks of, and keeps memory canonical. -/
theorem State.Inv.of_exec {i : Instr} (hs : s.Inv) (h : exec i s = .next t) : t.Inv := by
  obtain ⟨hframe, hmem⟩ := exec_next h
  obtain ⟨hwf, hrecords⟩ := hs
  refine ⟨hmem.wf hwf, ?_⟩
  unfold State.Changes at hframe
  rw [hframe]
  exact hrecords

/-- A numbered history stays so when the entry with the next number is put last. -/
theorem numberedFrom_append_singleton {n : Int} {es : List HistoryEntry} {e : HistoryEntry}
    (h : numberedFrom n es = true) (he : e.cycle = n + es.length + 1) :
    numberedFrom n (es ++ [e]) = true := by
  induction es generalizing n with
  | nil => simpa [numberedFrom] using he
  | cons d es ih =>
    simp only [numberedFrom, Bool.and_eq_true, List.cons_append] at h ⊢
    refine ⟨h.1, ih h.2 ?_⟩
    rw [he, List.length_cons]
    push_cast
    ring

/-- Retiring a well-formed instruction writes the entry numbered with the new count (R124), and the traces
that entry carries. -/
theorem State.Inv.retire {i : Instr} (hs : s.Inv) (hi : i.wf = true) : (s.retire i).Inv := by
  obtain ⟨hwf, hnum, hcount, -, -⟩ := hs
  refine ⟨hwf, ?_, ?_, ?_, hi⟩
  · rw [State.retire_history]
    exact numberedFrom_append_singleton hnum (by simp [hcount])
  · simp [hcount]
  · simp [State.tracesMatch]

/-- Settles O44: an `Ok` step is a fetch, an instruction and its retirement, and a fault leaves the state but
for the fetch. -/
theorem stepKeepsInvariant : Obligations.StepKeepsInvariant := by
  unfold Obligations.StepKeepsInvariant
  intro s hs
  refine ⟨fun u hu => ?_, fun f hf => hs.of_onlyFetched (step_fault_onlyFetched hf)⟩
  obtain ⟨-, -, i, t, hdec, hexec, rfl⟩ := step_next_iff.1 hu
  have hfetched : (s.setIr (s.word s.pc)).Inv := hs.of_onlyFetched (State.onlyFetched_setIr _)
  exact (hfetched.of_exec hexec).retire (decode_wf hdec)

end Sys2Proof.Machine
end

section
/-! PROOFS. O59: the stack view as a dump of the words from SP to the stack base. -/

namespace Sys2Proof.Machine

variable {s t : State}

/-! ### Dumps -/

@[simp] theorem State.memoryDump_length (s : State) (a n : Int) :
    (s.memoryDump a n).length = n.toNat := by
  simp [State.memoryDump]

theorem State.memoryDump_getElem? (s : State) (a : Int) {n : Int} {i : Nat} (h : i < n.toNat) :
    (s.memoryDump a n)[i]? = some (s.peek (a + i)) := by
  simp [State.memoryDump, List.getElem?_range h]

theorem State.memoryDump_of_nonpos (s : State) (a : Int) {n : Int} (h : n ≤ 0) :
    s.memoryDump a n = [] :=
  List.eq_nil_of_length_eq_zero (by simp [h])

/-- A dump is its first word before the dump from the next address. -/
theorem State.memoryDump_eq_cons (s : State) (a : Int) {n : Int} (h : 0 < n) :
    s.memoryDump a n = s.peek a :: s.memoryDump (a + 1) (n - 1) := by
  obtain ⟨m, hm⟩ : ∃ m, n.toNat = m + 1 := ⟨n.toNat - 1, by omega⟩
  have hm' : (n - 1).toNat = m := by omega
  simp [State.memoryDump, hm, hm', List.range_succ_eq_map, add_assoc, add_comm (1 : Int)]

theorem State.memoryDump_congr {a n : Int} (h : ∀ b, a ≤ b → t.peek b = s.peek b) :
    t.memoryDump a n = s.memoryDump a n :=
  List.map_congr_left fun i _ => h (a + i) (by omega)

/-! ### The stack view -/

theorem State.snapshot_stack (h : 0 ≤ s.sp) : s.snapshot.stack = s.memoryDump s.sp (4095 - s.sp) := by
  change s.memoryDump (max s.sp 0) (4095 - max s.sp 0) = _
  rw [max_eq_left h]

/-- At or above the stack base there are no words (R36). -/
theorem State.snapshot_stack_empty (h : 4095 ≤ s.sp) : s.snapshot.stack = [] := by
  rw [State.snapshot_stack (by omega)]
  exact s.memoryDump_of_nonpos _ (by omega)

theorem State.snapshot_stack_length (h : 0 ≤ s.sp) (h' : s.sp < 4095) :
    (s.snapshot.stack.length : Int) = 4095 - s.sp := by
  rw [State.snapshot_stack h, State.memoryDump_length]
  omega

theorem State.snapshot_stack_getElem? (h : 0 ≤ s.sp) {i : Nat} (hi : (i : Int) < 4095 - s.sp) :
    s.snapshot.stack[i]? = some (s.word (s.sp + i)) := by
  have hin : InMemory (s.sp + i) := inMemory_iff.2 (by omega)
  rw [State.snapshot_stack h, s.memoryDump_getElem? _ (by omega), State.peek_inside hin]

/-- After a store the word stored is what a peek of it shows. -/
theorem State.StoresOnly.peek_same {a v : Int} (h : s.StoresOnly t a v) (ha : InMemory a) : t.peek a = v := by
  obtain ⟨-, hword, -⟩ := h
  rw [State.peek_inside ha, hword]

/-- After a store every other peek is as before, outside memory too. -/
theorem State.StoresOnly.peek_other {a b v : Int} (h : s.StoresOnly t a v) (hb : b ≠ a) :
    t.peek b = s.peek b := by
  obtain ⟨-, -, hother⟩ := h
  by_cases hin : InMemory b
  · rw [State.peek_inside hin, State.peek_inside hin, hother b hin hb]
  · rw [State.peek_outside hin, State.peek_outside hin]

/-- A store to the word below SP with SP lowered onto it, which is what a push does (R118), puts the word before
those the stack had: none of them is at the address stored to. -/
theorem State.StoresOnly.snapshot_stack {v : Int} (h : s.StoresOnly t (s.sp - 1) v)
    (ht : t.sp = s.sp - 1) (hlow : 1 ≤ s.sp) (hhigh : s.sp ≤ 4095) :
    t.snapshot.stack = v :: s.snapshot.stack := by
  have hin : InMemory (s.sp - 1) := inMemory_iff.2 (by omega)
  have hfirst : t.peek (s.sp - 1) = v := h.peek_same hin
  have hrest : t.memoryDump s.sp (4095 - s.sp) = s.memoryDump s.sp (4095 - s.sp) :=
    State.memoryDump_congr fun b hb => h.peek_other (by omega)
  calc t.snapshot.stack
    _ = t.memoryDump (s.sp - 1) (4095 - (s.sp - 1)) := by rw [State.snapshot_stack (by omega), ht]
    _ = v :: t.memoryDump s.sp (4095 - s.sp) := by
      rw [State.memoryDump_eq_cons _ _ (by omega), hfirst]
      congr 2 <;> omega
    _ = v :: s.snapshot.stack := by rw [hrest, State.snapshot_stack (by omega)]

theorem snapshot_stack_exec_push {k : Nat} (hm : s.mem.wf = true) (hlow : 1 ≤ s.sp) (hhigh : s.sp ≤ 4095)
    (h : exec (.push k) s = .next t) : t.snapshot.stack = (k : Int) :: s.snapshot.stack := by
  obtain ⟨hin, ht⟩ := exec_push_next h
  have hstore : s.StoresOnly t s.pushAddr k := State.storesOnly_of_setWord hm hin (by simp [← ht])
  exact hstore.snapshot_stack (by simp [← ht, State.pushAddr]) hlow hhigh

/-- Settles O59: the stack view is a dump from SP, and a push stores just below it. -/
theorem snapshotStack : Obligations.SnapshotStack := by
  unfold Obligations.SnapshotStack
  exact ⟨fun s h => State.snapshot_stack_empty h,
    fun s h h' => ⟨State.snapshot_stack_length h h', fun i hi => State.snapshot_stack_getElem? h hi⟩,
    fun s t k hm hlow hhigh h => snapshot_stack_exec_push hm hlow hhigh h⟩

end Sys2Proof.Machine
end

section
/-! PROOFS. O28 and O58: a store changes one word, whether an instruction or the host makes it. -/

namespace Sys2Proof.Machine

variable {s t : State}

/-- Where memory is written at most at `dest`, a word at any other address reads as before. -/
theorem State.MemoryAfter.word_other {dest : Option Int} (h : s.MemoryAfter t dest) {b : Int}
    (hb : InMemory b) (hne : dest ≠ some b) : t.word b = s.word b := by
  cases dest with
  | none => exact State.word_congr h b
  | some a =>
    obtain ⟨ha, v, hmem⟩ := h
    have hba : b ≠ a := fun heq => hne (heq ▸ rfl)
    rw [State.word_congr hmem, State.word_setWord_other ha.1 hb.1 hba]

/-- Settles O28: an instruction writes memory at its store address at most. -/
theorem memoryFrame : Obligations.MemoryFrame := by
  unfold Obligations.MemoryFrame
  intro i s t h
  obtain ⟨-, hmem⟩ := exec_next h
  refine ⟨fun b hb hne => hmem.word_other hb hne, fun hnone => ?_⟩
  rw [hnone] at hmem
  exact hmem

theorem State.poke_inside {a : Int} (h : InMemory a) (v : Int) : s.poke a v = some (s.setWord a v) :=
  if_pos h

theorem State.poke_outside {a : Int} (h : ¬ InMemory a) (v : Int) : s.poke a v = none := if_neg h

/-- Settles O58: a poke inside memory is a store of one word, and a dump is a list of peeks. -/
theorem hostMemoryAccess : Obligations.HostMemoryAccess := by
  unfold Obligations.HostMemoryAccess
  refine ⟨fun s a ha => State.peek_inside ha, fun s a v hm ha => ?_,
    fun s a v ha => ⟨State.poke_outside ha v, State.peek_outside ha⟩,
    fun s a n => ⟨s.memoryDump_length a n, fun i hi => s.memoryDump_getElem? a hi⟩⟩
  have hstore : s.StoresOnly (s.setWord a v) a v := State.storesOnly_of_setWord hm ha rfl
  exact ⟨_, State.poke_inside ha v, hstore.peek_same ha, fun b hb => hstore.peek_other hb, rfl⟩

end Sys2Proof.Machine
end

section
/-! PROOFS. O30: the accesses of R57's table and the stack check decide whether an instruction completes. -/

namespace Sys2Proof.Machine

variable {s t : State}

/-- The check a pop makes (R119) is R233's with its access inside memory. -/
theorem pop_check_iff {p : Int} : p < 4095 ∧ InMemory p ↔ 0 ≤ p ∧ p < 4095 := by
  rw [inMemory_iff]
  omega

/-- What R57 and R233 ask of the state an instruction runs on. -/
def ChecksPass (i : Instr) (s : State) : Prop :=
  (pops i = true → s.sp < 4095) ∧ ∀ x ∈ accesses i s, InMemory x.addr

theorem checksPass_of_exec_next {i : Instr} (h : exec i s = .next t) : ChecksPass i s := by
  cases i with
  | lodd a | addd a | subd a | lodl a | addl a | subl a =>
    obtain ⟨hin, -⟩ := State.aluFromMemory_next h
    exact ⟨nofun, List.forall_mem_singleton.2 hin⟩
  | stod a | stol a =>
    obtain ⟨hin, -⟩ := State.storeAc_next h
    exact ⟨nofun, List.forall_mem_singleton.2 hin⟩
  | jump a | jpos a | jzer a | jneg a | jnze a | loco k | insp n | desp n => exact ⟨nofun, nofun⟩
  | call a =>
    obtain ⟨hin, -⟩ := exec_call_next h
    exact ⟨nofun, List.forall_mem_singleton.2 hin⟩
  | push k =>
    obtain ⟨hin, -⟩ := exec_push_next h
    exact ⟨nofun, List.forall_mem_singleton.2 hin⟩
  | pshi a =>
    obtain ⟨ha, hin, -⟩ := exec_pshi_next h
    exact ⟨nofun, List.forall_mem_cons.2 ⟨ha, List.forall_mem_singleton.2 hin⟩⟩
  | retn =>
    obtain ⟨hlive, -⟩ := exec_retn_next h
    obtain ⟨hsp, hin⟩ := pop_check_iff.2 hlive
    exact ⟨fun _ => hsp, List.forall_mem_singleton.2 hin⟩
  | pop y =>
    obtain ⟨hlive, -⟩ := exec_pop_next h
    obtain ⟨hsp, hin⟩ := pop_check_iff.2 hlive
    exact ⟨fun _ => hsp, List.forall_mem_singleton.2 hin⟩
  | popi a =>
    obtain ⟨hlive, ha, -⟩ := exec_popi_next h
    obtain ⟨hsp, hin⟩ := pop_check_iff.2 hlive
    exact ⟨fun _ => hsp, List.forall_mem_cons.2 ⟨hin, List.forall_mem_singleton.2 ha⟩⟩
  | swap a =>
    obtain ⟨ha, -⟩ := exec_swap_next h
    exact ⟨nofun, List.forall_mem_cons.2 ⟨ha, List.forall_mem_singleton.2 ha⟩⟩

theorem exec_next_of_checksPass {i : Instr} (h : ChecksPass i s) : ∃ t, exec i s = .next t := by
  obtain ⟨hpop, hacc⟩ := h
  cases i with
  | lodd a | addd a | subd a | lodl a | addl a | subl a =>
    exact ⟨_, State.aluFromMemory_inside (hacc _ (.head _)) _⟩
  | stod a | stol a => exact ⟨_, State.storeAc_inside (hacc _ (.head _))⟩
  | jump a | jpos a | jzer a | jneg a | jnze a | loco k | insp n | desp n => exact ⟨_, rfl⟩
  | call a => exact ⟨_, exec_call_inside (hacc _ (.head _)) a⟩
  | push k => exact ⟨_, State.pushAndAdvance_inside (hacc _ (.head _)) k⟩
  | pshi a => exact ⟨_, exec_pshi_inside (hacc _ (.head _)) (hacc _ (.tail _ (.head _)))⟩
  | retn =>
    obtain ⟨hlow, hhigh⟩ := pop_check_iff.1 ⟨hpop rfl, hacc _ (.head _)⟩
    exact ⟨_, exec_retn_live hlow hhigh⟩
  | pop y =>
    obtain ⟨hlow, hhigh⟩ := pop_check_iff.1 ⟨hpop rfl, hacc _ (.head _)⟩
    exact ⟨_, exec_pop_live hlow hhigh y⟩
  | popi a =>
    obtain ⟨hlow, hhigh⟩ := pop_check_iff.1 ⟨hpop rfl, hacc _ (.head _)⟩
    exact ⟨_, exec_popi_live hlow hhigh (hacc _ (.tail _ (.head _)))⟩
  | swap a => exact ⟨_, exec_swap_inside (hacc _ (.head _))⟩

/-- Settles O30: each instruction makes exactly the checks that R57 and R233 give it. -/
theorem completesExactlyWhen : Obligations.CompletesExactlyWhen := by
  unfold Obligations.CompletesExactlyWhen
  exact fun i s => ⟨fun ⟨_, h⟩ => checksPass_of_exec_next h, exec_next_of_checksPass⟩

end Sys2Proof.Machine
end

section
/-! PROOFS. O43: STOD over the next instruction, then the fetch of the word stored. -/

namespace Sys2Proof.Machine

variable {s : State}

/-- STOD's word decodes to STOD with the operand its field carries. -/
theorem decode_wordValue_encode_stod {a : Nat} (ha : a ≤ 4095) :
    decode (wordValue (encode (.stod a))) = .instr (.stod a) := by
  have hfield : zext (BitVec.ofInt 12 (a : Int)) = a := zext_ofInt (Nat.lt_succ_of_le ha)
  calc decode (wordValue (encode (.stod a)))
    _ = decodeWord (basicWord .stod a) := decode_wordValue _
    _ = .instr (.stod (zext (BitVec.ofInt 12 (a : Int)))) := decodeWord_basicWord .stod a
    _ = .instr (.stod a) := by rw [hfield]

/-- The state a step that runs STOD leaves: fetched, stored, advanced and retired. -/
def State.afterStod (s : State) (a : Nat) : State :=
  ((s.setIr (s.word s.pc)).setWord (directEa a) s.ac).withoutAlu.advance.retire (.stod a)

theorem step_stod {a : Nat} (hpc : InMemory s.pc) (ha : a ≤ 4095)
    (hword : s.word s.pc = wordValue (encode (.stod a))) : step s = .next (s.afterStod a) := by
  have hdec : decode (s.word s.pc) = .instr (.stod a) := by rw [hword, decode_wordValue_encode_stod ha]
  have hnonzero : s.word s.pc ≠ 0 := fun h0 => by
    have hlodd : decode 0 = .instr (.lodd 0) := by decide
    rw [h0, hlodd] at hdec
    cases hdec
  exact step_next_iff.2
    ⟨hpc, hnonzero, _, _, hdec, State.storeAc_inside (inMemory_directEa ha), rfl⟩

theorem State.word_afterStod (hm : s.mem.wf = true) (a : Nat) : (s.afterStod a).word a = s.ac :=
  (s.setIr (s.word s.pc)).word_setWord_same hm (directEa a) s.ac

/-- Settles O43: after the STOD, PC holds the address stored to, and the step fetches AC's value there. -/
theorem storedWordIsFetchedNext : Obligations.StoredWordIsFetchedNext := by
  unfold Obligations.StoredWordIsFetchedNext
  intro s a hm hpc hnext ha hword
  have hpc' : (s.afterStod a).pc = a := hnext
  have hin : InMemory (s.afterStod a).pc := hpc' ▸ inMemory_directEa ha
  have hfetched : (s.afterStod a).word (s.afterStod a).pc = s.ac := by
    rw [hpc', State.word_afterStod hm]
  have hstep := step_inside hin
  rw [hfetched] at hstep
  refine ⟨s.afterStod a, step_stod hpc ha hword, hpc', fun h0 => ?_, fun i hne hdec => ?_⟩
  · exact ⟨_, hstep.trans (if_pos h0)⟩
  · rw [hstep, if_neg hne, hdec, issue]

end Sys2Proof.Machine
end

section
/-! PROOFS. The codec in both directions: what a word holds of an instruction, and what a decoded instruction
takes from its word. -/

namespace Sys2Proof

/-! ### The encoder's three forms (R82, R83) -/

theorem encodeMnemonic_basic (b : BasicOp) (k : Option Int) :
    encodeMnemonic (.basic b) k = basicWord b (k.getD 0) := rfl

theorem encodeMnemonic_ext {e : ExtOp} (h : e ≠ .retn) (k : Option Int) :
    encodeMnemonic (.ext e) k = extWord e (k.getD 0) := by
  cases e with
  | retn => exact absurd rfl h
  | pshi | popi | push | pop | swap | insp | desp => rfl

theorem encodeMnemonic_retn (k : Option Int) : encodeMnemonic (.ext .retn) k = extWord .retn 0 := rfl

/-! ### A word by its fields, as integers (R71, R72) -/

theorem extMark_toNat : extMark.toNat = 15 := rfl

theorem eq_of_basicFields {v w : InstrWord} (hop : opField v = opField w)
    (hx : basicField v = basicField w) : v = w :=
  BitVec.eq_of_toNat_eq (by rw [toNat_eq_basicFields v, hop, hx, ← toNat_eq_basicFields])

theorem eq_of_extFields {v w : InstrWord} (hop : opField v = opField w) (hsub : subField v = subField w)
    (hy : extField v = extField w) : v = w :=
  BitVec.eq_of_toNat_eq (by rw [toNat_eq_extFields v, hop, hsub, hy, ← toNat_eq_extFields])

theorem wordValue_div_4096 (w : InstrWord) : wordValue w / 4096 = (opField w).toNat := by
  have h := toNat_eq_basicFields w
  have hx := basicField_lt w
  simp only [wordValue]
  omega

theorem wordValue_mod_4096 (w : InstrWord) : wordValue w % 4096 = (basicField w).toNat := by
  have h := toNat_eq_basicFields w
  have hx := basicField_lt w
  simp only [wordValue]
  omega

theorem wordValue_div_256 (w : InstrWord) :
    wordValue w / 256 = (opField w).toNat * 16 + (subField w).toNat := by
  have h := toNat_eq_extFields w
  have hy := extField_lt w
  simp only [wordValue]
  omega

theorem wordValue_mod_256 (w : InstrWord) : wordValue w % 256 = (extField w).toNat := by
  have h := toNat_eq_extFields w
  have hy := extField_lt w
  simp only [wordValue]
  omega

/-- Bits 15:12 are 0xF exactly in an extended word (R73). -/
theorem wordValue_div_4096_eq_15_iff (w : InstrWord) : wordValue w / 4096 = 0xF ↔ opField w = extMark := by
  rw [wordValue_div_4096, ← BitVec.toNat_inj, extMark_toNat]
  omega

/-- An integer in 0..0xFFFF is the value of a word (R70). -/
theorem exists_wordValue_eq {w : Int} (h : 0 ≤ w ∧ w ≤ 0xFFFF) : ∃ v : InstrWord, wordValue v = w := by
  refine ⟨BitVec.ofInt 16 w, ?_⟩
  simp only [wordValue, BitVec.toNat_ofInt]
  omega

/-! ### The value of an encoded word (R82, D32) -/

theorem wordValue_basicWord (b : BasicOp) (k : Int) :
    wordValue (basicWord b k) = (basicCode b).toNat * 4096 + k % 4096 := by
  have hfield : (BitVec.ofInt 12 k).toNat = (k % 4096).toNat := BitVec.toNat_ofInt k
  have h := toNat_eq_basicFields (basicWord b k)
  rw [opField_basicWord, basicField_basicWord, hfield] at h
  simp only [wordValue]
  omega

theorem wordValue_extWord (e : ExtOp) (k : Int) :
    wordValue (extWord e k) = 0xF000 + (extCode e).toNat * 256 + k % 256 := by
  have hfield : (BitVec.ofInt 8 k).toNat = (k % 256).toNat := BitVec.toNat_ofInt k
  have h := toNat_eq_extFields (extWord e k)
  rw [opField_extWord, subField_extWord, extField_extWord, hfield, extMark_toNat] at h
  simp only [wordValue]
  omega

/-! ### The opcode and the operand of a decoded instruction (R76) -/

/-- The operand a basic opcode takes from its field. -/
def basicOperand (b : BasicOp) (x : BitVec 12) : Int := if b = .loco then sext x else zext x

@[simp] theorem basicInstr_mnemonic (b : BasicOp) (x : BitVec 12) : (basicInstr b x).mnemonic = .basic b := by
  cases b <;> rfl

@[simp] theorem extInstr_mnemonic (e : ExtOp) (y : BitVec 8) : (extInstr e y).mnemonic = .ext e := by
  cases e <;> rfl

@[simp] theorem basicInstr_operand (b : BasicOp) (x : BitVec 12) :
    (basicInstr b x).operand = some (basicOperand b x) := by
  cases b <;> rfl

@[simp] theorem extInstr_retn_operand (y : BitVec 8) : (extInstr .retn y).operand = none := rfl

theorem extInstr_operand {e : ExtOp} (h : e ≠ .retn) (y : BitVec 8) :
    (extInstr e y).operand = some (zext y : Int) := by
  cases e with
  | retn => exact absurd rfl h
  | pshi | popi | push | pop | swap | insp | desp => rfl

theorem ofInt_basicOperand (b : BasicOp) (x : BitVec 12) : BitVec.ofInt 12 (basicOperand b x) = x := by
  by_cases hb : b = .loco <;> simp [basicOperand, hb, sext, zext]

theorem basicOperand_of_ne_loco {b : BasicOp} (h : b ≠ .loco) (x : BitVec 12) :
    basicOperand b x = x.toNat := if_neg h

theorem encode_basicInstr (b : BasicOp) (x : BitVec 12) :
    encode (basicInstr b x) = basicWord b (basicOperand b x) := by
  rw [encode, basicInstr_mnemonic, basicInstr_operand]
  rfl

theorem encode_extInstr {e : ExtOp} (h : e ≠ .retn) (y : BitVec 8) :
    encode (extInstr e y) = extWord e (zext y) := by
  rw [encode, extInstr_mnemonic, extInstr_operand h, encodeMnemonic_ext h]
  rfl

/-! ### Inverting the decoder -/

/-- The one inversion of the decoder: the word it was given is a 16-bit word, and its opcode fields are those of
the instruction answered, which is assembled from the operand field. -/
theorem decode_eq_instr {w : Int} {i : Instr} (h : decode w = .instr i) :
    ∃ v : InstrWord, wordValue v = w ∧
      ((∃ b, opField v = basicCode b ∧ i = basicInstr b (basicField v)) ∨
        ∃ e, opField v = extMark ∧ subField v = extCode e ∧ i = extInstr e (extField v)) := by
  by_cases hw : 0 ≤ w ∧ w ≤ 0xFFFF
  · obtain ⟨v, rfl⟩ := exists_wordValue_eq hw
    rw [decode_wordValue] at h
    refine ⟨v, rfl, ?_⟩
    obtain ⟨b, hop, hb⟩ | ⟨hop, e, hsub, he⟩ | ⟨-, -, hu⟩ := decodeWord_cases v
    · cases hb.symm.trans h
      exact .inl ⟨b, (basicCode_of_basicOfCode hop).symm, rfl⟩
    · cases he.symm.trans h
      exact .inr ⟨e, hop, (extCode_of_extOfCode hsub).symm, rfl⟩
    · cases hu.symm.trans h
  · rw [decode_outside hw] at h
    cases h

end Sys2Proof
end

section
/-! PROOFS. O1 and O2: decoding what the encoder made. -/

namespace Sys2Proof

/-- Settles O1: a decoded word gives its opcode and the operand of its field, and an operand inside its field
is read back from it. -/
theorem decodeOfEncode : Obligations.DecodeOfEncode := by
  unfold Obligations.DecodeOfEncode
  intro i hi
  rw [decode_wordValue]
  cases i with
  | lodd a | stod a | addd a | subd a | jpos a | jzer a | jump a | lodl a | stol a | addl a | subl a | jneg a
  | jnze a | call a =>
    have hfield : zext (BitVec.ofInt 12 (a : Int)) = a :=
      zext_ofInt (Nat.lt_succ_of_le ((fitsBasic_iff a).1 hi))
    refine (decodeWord_basicWord _ (a : Int)).trans ?_
    rw [basicInstr, hfield]
  | loco k =>
    obtain ⟨hlow, hhigh⟩ := (fitsImm_iff k).1 hi
    refine (decodeWord_basicWord .loco k).trans ?_
    rw [basicInstr, sext_ofInt hlow hhigh]
  | pshi a | popi a | push a | pop a | swap a | insp a | desp a =>
    have hfield : zext (BitVec.ofInt 8 (a : Int)) = a :=
      zext_ofInt (Nat.lt_succ_of_le ((fitsExt_iff a).1 hi))
    refine (decodeWord_extWord _ (a : Int)).trans ?_
    rw [extInstr, hfield]
  | retn => exact decodeWord_extWord .retn 0

end Sys2Proof

namespace Sys2Proof.Machine

theorem decodesTo_basic {b : BasicOp} {k v : Int} (h : basicOperand b (BitVec.ofInt 12 k) = v) :
    DecodesTo (encodeMnemonic (.basic b) (some k)) (.basic b) (some v) :=
  ⟨_, (decode_wordValue _).trans (decodeWord_basicWord b k), basicInstr_mnemonic b _,
    (basicInstr_operand b _).trans (congrArg some h)⟩

theorem decodesTo_ext {e : ExtOp} (he : e ≠ .retn) {k : Int} (h : (zext (BitVec.ofInt 8 k) : Int) = k) :
    DecodesTo (encodeMnemonic (.ext e) (some k)) (.ext e) (some k) := by
  rw [encodeMnemonic_ext he]
  exact ⟨_, (decode_wordValue _).trans (decodeWord_extWord e k), extInstr_mnemonic e _,
    (extInstr_operand he _).trans (congrArg some h)⟩

/-- RETN's operand is discarded (R83, D16). -/
theorem decodesTo_retn (k : Option Int) : DecodesTo (encodeMnemonic (.ext .retn) k) (.ext .retn) none :=
  ⟨_, (decode_wordValue _).trans (decodeWord_extWord .retn 0), rfl, rfl⟩

/-- An operand in the upper half of its field is LOCO's negative one (R76). -/
theorem sext_ofInt_upper {k : Int} (h : 2048 ≤ k) (h' : k ≤ 4095) :
    sext (BitVec.ofInt 12 k) = k - 4096 := by
  have hmasked : BitVec.ofInt 12 k = BitVec.ofInt 12 (k - 4096) :=
    BitVec.eq_of_toNat_eq (by simp only [BitVec.toNat_ofInt]; omega)
  rw [hmasked, sext_ofInt (by omega) (by omega)]

/-- With PC inside memory at the word 0 a step halts (R81). -/
theorem step_sentinel {s : State} (hpc : InMemory s.pc) (h0 : s.word s.pc = 0) :
    step s = .fault (.endOfProgram (s.setIr (s.word s.pc))) := by
  rw [step_inside hpc, if_pos h0]

/-- Settles O2: each mnemonic's word decodes to it, with the operand its field carries. -/
theorem roundTripOfMnemonics : Obligations.RoundTripOfMnemonics := by
  unfold Obligations.RoundTripOfMnemonics
  refine ⟨fun b k hb hlow hhigh => ?_, fun k hlow hhigh => decodesTo_basic (sext_ofInt hlow hhigh),
    fun k hlow hhigh => decodesTo_basic (sext_ofInt_upper hlow hhigh), fun e k he hlow hhigh => ?_,
    decodesTo_retn, by decide, by decide, fun s hpc h0 => ⟨_, step_sentinel hpc h0⟩⟩
  · lift k to Nat using hlow
    have hfield : zext (BitVec.ofInt 12 (k : Int)) = k := zext_ofInt (by omega)
    exact decodesTo_basic ((basicOperand_of_ne_loco hb _).trans (congrArg Nat.cast hfield))
  · lift k to Nat using hlow
    have hfield : zext (BitVec.ofInt 8 (k : Int)) = k := zext_ofInt (by omega)
    exact decodesTo_ext he (congrArg Nat.cast hfield)

/-- Settles O35: the halt check comes before decoding, so no step that executes fetched the word 0. -/
theorem sentinelHalts : Obligations.SentinelHalts := by
  unfold Obligations.SentinelHalts
  refine ⟨by decide, by decide, fun s hpc h0 => ⟨_, step_sentinel hpc h0⟩, fun s t h => ?_⟩
  obtain ⟨-, hne, -⟩ := step_next_iff.1 h
  exact hne

end Sys2Proof.Machine
end

section
/-! PROOFS. O3, O4, O5 and O7: the words the encoder makes, and what the decoder reads from a word's fields. -/

namespace Sys2Proof

/-- Settles O3: a word's value is its code fields above its operand field, which is the operand's residue. -/
theorem encoderReducesOperands : Obligations.EncoderReducesOperands := by
  unfold Obligations.EncoderReducesOperands
  refine ⟨wordValue_basicWord, fun e k he => ?_, fun k => by rw [encodeMnemonic_retn]; decide, fun mn => ?_⟩
  · rw [encodeMnemonic_ext he]
    exact wordValue_extWord e k
  · cases mn <;> rfl

/-- A basic word is rebuilt from the opcode and the operand read from it. -/
theorem encode_basicInstr_basicField {v : InstrWord} {b : BasicOp} (hop : opField v = basicCode b) :
    encode (basicInstr b (basicField v)) = v := by
  rw [encode_basicInstr]
  exact eq_of_basicFields (by rw [opField_basicWord, hop])
    (by rw [basicField_basicWord, ofInt_basicOperand])

/-- An extended word is rebuilt too, unless it is RETN's, whose low byte is lost (R83). -/
theorem encode_extInstr_extField {v : InstrWord} {e : ExtOp} (he : e ≠ .retn) (hop : opField v = extMark)
    (hsub : subField v = extCode e) : encode (extInstr e (extField v)) = v := by
  rw [encode_extInstr he]
  exact eq_of_extFields (by rw [opField_extWord, hop]) (by rw [subField_extWord, hsub])
    (by rw [extField_extWord]; simp [zext])

theorem extInstr_eq_retn_iff {e : ExtOp} {y : BitVec 8} : extInstr e y = .retn ↔ e = .retn := by
  cases e <;> simp [extInstr]

/-- Settles O4: the fields of the word decoded are those the encoder writes, but for RETN's low byte. -/
theorem encodeOfDecode : Obligations.EncodeOfDecode := by
  unfold Obligations.EncodeOfDecode
  intro w i h
  refine ⟨decode_wf h, ?_⟩
  obtain ⟨v, rfl, ⟨b, hop, rfl⟩ | ⟨e, hop, hsub, rfl⟩⟩ := decode_eq_instr h
  · refine ⟨fun _ => by rw [encode_basicInstr_basicField hop], fun hretn => ?_⟩
    have hmn := congrArg Instr.mnemonic hretn
    rw [basicInstr_mnemonic] at hmn
    cases hmn
  · rw [ne_eq, extInstr_eq_retn_iff]
    refine ⟨fun he => by rw [encode_extInstr_extField he hop hsub], ?_⟩
    rintro rfl
    rw [wordValue_div_256, hop, hsub]
    rfl

/-- Settles O5: the operand is read from the word's field, sign-extended for LOCO alone. -/
theorem operandAssembly : Obligations.OperandAssembly := by
  unfold Obligations.OperandAssembly
  intro w i _ _ h
  obtain ⟨v, rfl, ⟨b, -, rfl⟩ | ⟨e, -, -, rfl⟩⟩ := decode_eq_instr h
  · rw [basicInstr_mnemonic, basicInstr_operand, wordValue_mod_4096]
    cases b with
    | loco =>
      have hsext : basicOperand .loco (basicField v) = sext (basicField v) := rfl
      simp only [hsext, sext_eq]
      congr 1
      split <;> split <;> omega
    | lodd | stod | addd | subd | jpos | jzer | jump | lodl | stol | addl | subl | jneg | jnze | call => rfl
  · rw [extInstr_mnemonic, wordValue_mod_256]
    cases e <;> rfl

/-- Settles O7: a word decodes to a basic instruction exactly when bits 15:12 are not the extended mark. -/
theorem formatByTopBits : Obligations.FormatByTopBits := by
  unfold Obligations.FormatByTopBits
  intro w hlow hhigh
  obtain ⟨v, rfl⟩ := exists_wordValue_eq ⟨hlow, hhigh⟩
  rw [ne_eq, wordValue_div_4096_eq_15_iff, decode_wordValue]
  obtain ⟨b, hop, hb⟩ | ⟨hop, e, -, he⟩ | ⟨hop, -, hu⟩ := decodeWord_cases v
  · rw [← basicCode_of_basicOfCode hop]
    exact ⟨fun _ => basicCode_ne_extMark b, fun _ => ⟨_, b, hb, basicInstr_mnemonic b _⟩⟩
  · simp [hop, he]
  · simp [hop, hu]

end Sys2Proof
end

section
/-! PROOFS. O57: the binary listing, by the value of the bits already written. -/

namespace Sys2Proof.Machine

/-- The number that characters `0` and `1` spell, most significant first (D39). -/
def bitsValue (t : Text) : Nat := t.foldl (fun n c => 2 * n + if c = '1' then 1 else 0) 0

/-- A word's first `i` characters: `bitText w` is all sixteen. -/
def bitPrefix (w : InstrWord) (i : Nat) : Text :=
  (List.range i).map fun j => if w.getMsbD j then '1' else '0'

theorem bitText_eq_bitPrefix (w : InstrWord) : bitText w = bitPrefix w 16 := rfl

theorem bitPrefix_succ (w : InstrWord) (i : Nat) :
    bitPrefix w (i + 1) = bitPrefix w i ++ [if w.getMsbD i then '1' else '0'] := by
  simp [bitPrefix, List.range_succ]

theorem bitsValue_append_bit (t : Text) (b : Bool) :
    bitsValue (t ++ [if b then '1' else '0']) = 2 * bitsValue t + b.toNat := by
  cases b <;> simp [bitsValue]

/-- The first `i` characters spell the word's upper `i` bits. -/
theorem bitsValue_bitPrefix (w : InstrWord) {i : Nat} (h : i ≤ 16) :
    bitsValue (bitPrefix w i) = w.toNat / 2 ^ (16 - i) := by
  induction i with
  | zero => exact (Nat.div_eq_of_lt w.isLt).symm
  | succ i ih =>
    have hbit : (w.getMsbD i).toNat = w.toNat / 2 ^ (16 - (i + 1)) % 2 := by
      have hi : i < 16 := h
      have hpos : 16 - 1 - i = 16 - (i + 1) := by omega
      simp only [BitVec.getMsbD, hi, decide_true, Bool.true_and, hpos, BitVec.getLsbD, Nat.toNat_testBit]
    have hhalf : w.toNat / 2 ^ (16 - i) = w.toNat / 2 ^ (16 - (i + 1)) / 2 := by
      rw [Nat.div_div_eq_div_mul, ← pow_succ]
      congr 2
      omega
    rw [bitPrefix_succ, bitsValue_append_bit, ih (by omega), hbit, hhalf]
    omega

theorem bitText_length (w : InstrWord) : (bitText w).length = 16 := by simp [bitText]

theorem bitText_chars {w : InstrWord} {c : Char} (h : c ∈ bitText w) : c = '0' ∨ c = '1' := by
  obtain ⟨i, -, rfl⟩ := List.mem_map.1 h
  cases w.getMsbD i
  · exact .inl rfl
  · exact .inr rfl

theorem bitsValue_bitText (w : InstrWord) : bitsValue (bitText w) = w.toNat := by
  rw [bitText_eq_bitPrefix, bitsValue_bitPrefix w le_rfl]
  exact Nat.div_one _

/-- Settles O57: sixteen characters spell the whole word, and the listing is a map over the lines. -/
theorem binaryListing : Obligations.BinaryListing := by
  unfold Obligations.BinaryListing
  refine ⟨fun w => ⟨bitText_length w, fun c hc => bitText_chars hc, bitsValue_bitText w⟩,
    fun p => ⟨List.length_map _, fun j h => ?_⟩⟩
  have hline : p.instructions[j]? = some p.instructions[j] := List.getElem?_eq_getElem h
  exact List.getElem?_map.trans (congrArg (Option.map _) hline)

end Sys2Proof.Machine
end

section
/-! PROOFS. O55 and O56: what `parseProgram` makes of a text, line by line. -/

namespace Sys2Proof.Machine

/-! ### One trimmed line (R87, R88, D20) -/

theorem isSkipped_iff (t : Text) : isSkipped t = true ↔ t = [] ∨ t.head? = some '#' := by
  have hhash : "#".toList = ['#'] := rfl
  cases t with
  | nil => simp [isSkipped]
  | cons c t => simp [isSkipped, hhash, eq_comm (a := c)]

theorem isDirective_iff (t : Text) : isDirective t = true ↔ ".data".toList <+: t := by
  simp [isDirective]

/-- A `.data` line is neither blank nor a comment. -/
theorem isSkipped_of_isDirective {t : Text} (h : isDirective t = true) : isSkipped t = false := by
  obtain ⟨rest, rfl⟩ := (isDirective_iff t).1 h
  rfl

/-- A line that is read as an instruction. -/
def isInstrLine (t : Text) : Bool := !isSkipped t && !isDirective t

def errorOf {α : Type} (r : Except AsmError α) : Option AsmError :=
  match r with
  | .ok _ => none
  | .error e => some e

@[simp] theorem errorOf_eq_some_iff {α : Type} {r : Except AsmError α} {e : AsmError} :
    errorOf r = some e ↔ r = .error e := by
  cases r <;> simp [errorOf]

theorem errorOf_eq_none_iff {α : Type} {r : Except AsmError α} : errorOf r = none ↔ ∃ a, r = .ok a := by
  cases r <;> simp [errorOf]

/-- The error of a line, if it fails. -/
def lineError (t : Text) : Option AsmError :=
  if isSkipped t then none else if isDirective t then errorOf (parseData t) else errorOf (parse t)

/-- The address and the value a line gives, if it is a `.data` line that does not fail. -/
def lineData (t : Text) : Option (Int × Int) := if isDirective t then (parseData t).toOption else none

theorem parse_of_lineError_none {t : Text} (h : isInstrLine t = true) (he : lineError t = none) :
    ∃ p, parse t = .ok p := by
  obtain ⟨hs, hd⟩ : isSkipped t = false ∧ isDirective t = false := by simpa [isInstrLine] using h
  exact errorOf_eq_none_iff.1 (by simpa [lineError, hs, hd] using he)

/-! ### The data of a program: a later line for an address wins (D21) -/

/-- The addresses of `d` are pairwise different. -/
def KeysNodup (d : List (Int × Int)) : Prop := (d.map Prod.fst).Nodup

theorem keysNodup_nil : KeysNodup [] := List.nodup_nil

theorem map_fst_setData (a v : Int) (d : List (Int × Int)) :
    (setData a v d).map Prod.fst =
      if a ∈ d.map Prod.fst then d.map Prod.fst else d.map Prod.fst ++ [a] := by
  induction d with
  | nil => rfl
  | cons x d ih =>
    by_cases hx : a = x.1
    · simp [setData, hx]
    · by_cases hd : a ∈ d.map Prod.fst <;> simp_all [setData]

theorem KeysNodup.setData {d : List (Int × Int)} (hd : KeysNodup d) (a v : Int) :
    KeysNodup (setData a v d) := by
  unfold KeysNodup
  rw [map_fst_setData]
  split
  · exact hd
  · next ha => exact List.concat_eq_append ▸ hd.concat ha

theorem mem_setData_iff {d : List (Int × Int)} (hd : KeysNodup d) {a v b w : Int} :
    (b, w) ∈ setData a v d ↔ if b = a then w = v else (b, w) ∈ d := by
  induction d with
  | nil => by_cases hb : b = a <;> simp [setData, hb]
  | cons x d ih =>
    obtain ⟨c, u⟩ := x
    obtain ⟨hc, hd⟩ := List.nodup_cons.1 hd
    have hnot : ∀ y, (c, y) ∉ d := fun y hmem => hc (List.mem_map.2 ⟨(c, y), hmem, rfl⟩)
    by_cases hca : a = c
    · subst hca
      by_cases hb : b = a
      · subst hb; simp [setData, hnot]
      · simp [setData, hb]
    · by_cases hb : b = a
      · subst hb; simp [setData, hca, ih hd]
      · simp [setData, hca, ih hd, hb]

/-- Every pair is stored in turn (R88). -/
def storeAll (d xs : List (Int × Int)) : List (Int × Int) := xs.foldl (fun d x => setData x.1 x.2 d) d

theorem storeAll_append_singleton (d xs : List (Int × Int)) (x : Int × Int) :
    storeAll d (xs ++ [x]) = setData x.1 x.2 (storeAll d xs) := by
  simp [storeAll]

theorem KeysNodup.storeAll {d : List (Int × Int)} (hd : KeysNodup d) (xs : List (Int × Int)) :
    KeysNodup (storeAll d xs) := by
  induction xs using List.reverseRecOn with
  | nil => exact hd
  | append_singleton xs x ih => exact storeAll_append_singleton d xs x ▸ ih.setData x.1 x.2

theorem mem_storeAll_iff (xs : List (Int × Int)) (a v : Int) :
    (a, v) ∈ storeAll [] xs ↔ (xs.filter (·.1 = a)).getLast? = some (a, v) := by
  induction xs using List.reverseRecOn with
  | nil => simp [storeAll]
  | append_singleton xs x ih =>
    obtain ⟨b, w⟩ := x
    rw [storeAll_append_singleton, mem_setData_iff (keysNodup_nil.storeAll xs), List.filter_append]
    by_cases h : b = a
    · simp [h, eq_comm (a := v)]
    · simp [h, Ne.symm h, ih]

/-! ### The whole text -/

/-- The errors of the trimmed lines `ts`, numbered from `n` (D38). -/
def errorsFrom (n : Nat) (ts : List Text) : List (Nat × AsmError) :=
  (ts.zipIdx n).filterMap fun p => (lineError p.1).map (p.2, ·)

theorem errorsFrom_cons (n : Nat) (t : Text) (ts : List Text) :
    errorsFrom n (t :: ts) = ((lineError t).map (n, ·)).toList ++ errorsFrom (n + 1) ts := by
  cases h : lineError t <;> simp [errorsFrom, h]

theorem mem_errorsFrom_iff {n m : Nat} {ts : List Text} {e : AsmError} :
    (m, e) ∈ errorsFrom n ts ↔ n ≤ m ∧ ∃ t, ts[m - n]? = some t ∧ lineError t = some e := by
  simp only [errorsFrom, List.mem_filterMap, Prod.exists, List.mk_mem_zipIdx_iff_le_and_getElem?_sub,
    Option.map_eq_some_iff, Prod.mk.injEq]
  constructor
  · rintro ⟨t, m, ⟨hle, ht⟩, e, he, rfl, rfl⟩
    exact ⟨hle, t, ht, he⟩
  · rintro ⟨hle, t, ht, he⟩
    exact ⟨t, m, ⟨hle, ht⟩, e, he, rfl, rfl⟩

theorem errorsFrom_pairwise (n : Nat) (ts : List Text) :
    ((errorsFrom n ts).map Prod.fst).Pairwise (· < ·) := by
  have hidx : (ts.zipIdx n).Pairwise (·.2 < ·.2) := by
    rw [← List.pairwise_map (f := Prod.snd) (R := (· < ·)), List.zipIdx_map_snd]
    exact List.pairwise_lt_range'
  refine List.pairwise_map.2 (hidx.filterMap _ ?_)
  intro p q hlt x hx y hy
  obtain ⟨_, -, rfl⟩ := Option.map_eq_some_iff.1 hx
  obtain ⟨_, -, rfl⟩ := Option.map_eq_some_iff.1 hy
  exact hlt

theorem errorsFrom_eq_nil_iff {n : Nat} {ts : List Text} :
    errorsFrom n ts = [] ↔ ∀ t ∈ ts, lineError t = none := by
  induction ts generalizing n with
  | nil => simp [errorsFrom]
  | cons t ts ih => cases h : lineError t <;> simp [errorsFrom_cons, h, ih]

/-- The result at the end of a text, with these errors, instruction lines and data kept. -/
def parseResult (errors : List (Nat × AsmError)) (instrs : List Text) (data : List (Int × Int)) :
    ParseResult := parseLines 0 errors instrs data []

/-- An instruction line that does not fail. -/
def isGoodInstrLine (t : Text) : Bool := isInstrLine t && (lineError t).isNone

/-- One line adds its error, or its text, or its data, to what is kept. -/
theorem parseLines_cons (n : Nat) (errors : List (Nat × AsmError)) (instrs : List Text)
    (data : List (Int × Int)) (line : Text) (rest : List Text) :
    parseLines n errors instrs data (line :: rest) =
      parseLines (n + 1) (errors ++ ((lineError (trim line)).map (n, ·)).toList)
        (instrs ++ [trim line].filter isGoodInstrLine) (storeAll data (lineData (trim line)).toList) rest := by
  generalize ht : trim line = t
  by_cases hd : isDirective t = true
  · have hs := isSkipped_of_isDirective hd
    cases hp : parseData t <;>
      simp [parseLines, ht, hs, hd, hp, lineError, lineData, isGoodInstrLine, isInstrLine, errorOf, storeAll,
        Except.toOption]
  · by_cases hs : isSkipped t = true
    · simp [parseLines, ht, hs, hd, lineError, lineData, isGoodInstrLine, isInstrLine, storeAll]
    · cases hp : parse t <;>
        simp [parseLines, ht, hs, hd, hp, lineError, lineData, isGoodInstrLine, isInstrLine, errorOf, storeAll]

theorem parseLines_eq (n : Nat) (errors : List (Nat × AsmError)) (instrs : List Text)
    (data : List (Int × Int)) (lines : List Text) :
    parseLines n errors instrs data lines =
      parseResult (errors ++ errorsFrom n (lines.map trim)) (instrs ++ (lines.map trim).filter isGoodInstrLine)
        (storeAll data ((lines.map trim).filterMap lineData)) := by
  induction lines generalizing n errors instrs data with
  | nil => simp [errorsFrom, storeAll, parseResult, parseLines]
  | cons line lines ih =>
    rw [parseLines_cons, ih, List.map_cons, errorsFrom_cons]
    by_cases hgood : isGoodInstrLine (trim line) <;> cases hdata : lineData (trim line) <;>
      simp [hgood, hdata, storeAll]

/-- The trimmed lines of a text (R87). -/
def trimmedLines (text : Text) : List Text := (splitLines text).map trim

theorem parseProgram_eq (text : Text) :
    parseProgram text =
      parseResult (errorsFrom 1 (trimmedLines text)) ((trimmedLines text).filter isGoodInstrLine)
        (storeAll [] ((trimmedLines text).filterMap lineData)) :=
  parseLines_eq 1 [] [] [] (splitLines text)

theorem parseProgram_errors (text : Text) :
    (parseProgram text).errors = errorsFrom 1 (trimmedLines text) := by
  rw [parseProgram_eq]; rfl

theorem parseProgram_valid (text : Text) :
    (parseProgram text).valid = (parseProgram text).errors.isEmpty := by
  rw [parseProgram_eq]; rfl

theorem parseProgram_program_isSome (text : Text) :
    (parseProgram text).program.isSome = (parseProgram text).valid := by
  rw [parseProgram_eq]
  cases h : errorsFrom 1 (trimmedLines text) <;> rfl

/-- The program of a text none of whose lines fails. -/
def programOf (ts : List Text) : Program where
  instructions := ts.filter isInstrLine
  data := storeAll [] (ts.filterMap lineData)

/-- A text has a program exactly when no line fails, and then every line that is no `.data` line is in it. -/
theorem parseProgram_program_iff {text : Text} {p : Program} :
    (parseProgram text).program = some p ↔
      (∀ t ∈ trimmedLines text, lineError t = none) ∧ programOf (trimmedLines text) = p := by
  rw [parseProgram_eq, ← errorsFrom_eq_nil_iff (n := 1)]
  cases h : errorsFrom 1 (trimmedLines text) with
  | nil =>
    have hgood : (trimmedLines text).filter isGoodInstrLine = (trimmedLines text).filter isInstrLine :=
      List.filter_congr fun t ht => by simp [isGoodInstrLine, errorsFrom_eq_nil_iff.1 h t ht]
    rw [hgood, and_iff_right rfl]
    exact Option.some_inj
  | cons x es => exact ⟨nofun, nofun⟩

/-! ### In the words of the statement -/

theorem lineError_eq_some_iff {t : Text} {e : AsmError} :
    lineError t = some e ↔ t ≠ [] ∧ t.head? ≠ some '#' ∧
      if ".data".toList <+: t then parseData t = .error e else parse t = .error e := by
  rw [lineError, ← and_assoc, ← not_or, ← isSkipped_iff]
  simp only [← isDirective_iff]
  by_cases hs : isSkipped t = true
  · simp [hs]
  · by_cases hd : isDirective t = true <;> simp [hs, hd]

theorem isInstrLine_iff (t : Text) :
    isInstrLine t = true ↔ t ≠ [] ∧ t.head? ≠ some '#' ∧ ¬ ".data".toList <+: t := by
  rw [← and_assoc, ← not_or, ← isSkipped_iff, ← isDirective_iff]
  simp [isInstrLine]

theorem programOf_instructions (ts : List Text) :
    (programOf ts).instructions =
      ts.filter fun t => t ≠ [] ∧ t.head? ≠ some '#' ∧ ¬ ".data".toList <+: t :=
  List.filter_congr fun t _ => Bool.eq_iff_iff.2 ((isInstrLine_iff t).trans decide_eq_true_iff.symm)

theorem filterMap_lineData (ts : List Text) :
    ts.filterMap lineData =
      (ts.filter (".data".toList <+: ·)).filterMap fun t => (parseData t).toOption := by
  rw [List.filterMap_filter]
  refine List.filterMap_congr fun t _ => ?_
  simp only [lineData, isDirective_iff, decide_eq_true_eq]

theorem mem_programOf_data_iff {ts : List Text} {a v : Int} :
    (a, v) ∈ (programOf ts).data ↔
      (((ts.filter (".data".toList <+: ·)).filterMap fun t => (parseData t).toOption).filter
        (·.1 = a)).getLast? = some (a, v) := by
  rw [← filterMap_lineData]
  exact mem_storeAll_iff _ a v

/-- Settles O55: parsing a text is what each of its trimmed lines gives, put together in order. -/
theorem parseReportsErrors : Obligations.ParseReportsErrors := by
  unfold Obligations.ParseReportsErrors
  intro text
  refine ⟨parseProgram_valid text, parseProgram_program_isSome text, ?_, ?_, ?_, ?_⟩
  · rw [parseProgram_errors]
    exact errorsFrom_pairwise 1 _
  · rintro ⟨n, e⟩ hmem
    rw [parseProgram_errors] at hmem
    obtain ⟨hn, t, ht, -⟩ := mem_errorsFrom_iff.1 hmem
    obtain ⟨hlt, -⟩ := List.getElem?_eq_some_iff.1 ht
    rw [trimmedLines, List.length_map] at hlt
    exact ⟨hn, by omega⟩
  · intro n e
    rw [parseProgram_errors, mem_errorsFrom_iff]
    simp only [lineError_eq_some_iff, ← exists_and_left]
    rfl
  · intro p hp
    obtain ⟨-, rfl⟩ := parseProgram_program_iff.1 hp
    exact ⟨programOf_instructions _, fun a v => mem_programOf_data_iff⟩

/-! ### Loading an accepted program -/

theorem parses_of_mem_programOf {ts : List Text} (hts : ∀ t ∈ ts, lineError t = none) {t : Text}
    (ht : t ∈ (programOf ts).instructions) : ∃ q, parse t = .ok q := by
  obtain ⟨hmem, hinstr⟩ := List.mem_filter.1 ht
  exact parse_of_lineError_none hinstr (hts t hmem)

/-- Lines that parse are loaded to the last (R262). -/
theorem State.loadLines_of_parses {lines : List Text} (h : ∀ t ∈ lines, ∃ q, parse t = .ok q) (s : State)
    (a : Int) : (s.loadLines a lines).2 = none := by
  induction lines generalizing s a with
  | nil => rfl
  | cons t lines ih =>
    obtain ⟨⟨q, hq⟩, hrest⟩ := List.forall_mem_cons.1 h
    rw [State.loadLines, hq]
    exact ih hrest _ _

/-- The engine's load of lines that parse is refused for its range at most (R263, R266). -/
theorem State.loadProgram_of_parses {lines : List Text} (h : ∀ t ∈ lines, ∃ q, parse t = .ok q) (s : State)
    (base : Int) (e : AsmError) : (s.loadProgram lines base).2 ≠ some (.codec e) := by
  have hcode : ∀ t ∈ codeLines lines, ∃ q, parse t = .ok q := fun t ht => h t (List.mem_of_mem_filter ht)
  rw [State.loadProgram]
  split
  · rw [State.loadLines_of_parses hcode]
    exact nofun
  · exact nofun

/-- The controller's load reports the engine's error, or a range error of its own (R264). -/
theorem Controller.loadProgram_error {c : Controller} {p : Program} {e : LoadError}
    (h : (c.loadProgram p).2 = some e) :
    e = .range ∨ (c.engine.resetByHost.loadProgram p.instructions).2 = some e := by
  simp only [Controller.loadProgram] at h
  split at h
  · rcases hload : c.engine.resetByHost.loadProgram p.instructions with ⟨s, _ | err⟩
    · rw [hload] at h
      cases h
    · rw [hload] at h
      exact .inr h
  · exact .inl (Option.some_inj.1 h).symm

/-- Settles O56: an accepted program's lines all parse, so no line fails in the load. -/
theorem parsedProgramLoads : Obligations.ParsedProgramLoads := by
  unfold Obligations.ParsedProgramLoads
  intro text p c hp
  obtain ⟨hts, rfl⟩ := parseProgram_program_iff.1 hp
  refine ⟨keysNodup_nil.storeAll _, fun e he => ?_⟩
  obtain hrange | hengine := Controller.loadProgram_error he
  · cases hrange
  · exact State.loadProgram_of_parses (fun t ht => parses_of_mem_programOf hts ht) _ _ e hengine

end Sys2Proof.Machine
end

section
/-! PROOFS. O14, O15, O18, O20, O24 and O26: the loads, stores and jumps of one operand form, the pops, and the
moves of SP, each by the state it leaves. -/

namespace Sys2Proof.Machine

variable {s : State}

/-! ### One operand form: the whole next state -/

theorem State.aluFromMemory_changes {ea : Int} (h : InMemory ea) (op : AluOp) :
    ∃ t, s.aluFromMemory op ea = .next t ∧
      s.Changes t (s.pc + 1) (alu op s.ac (s.word ea)) s.sp s.mem :=
  ⟨_, State.aluFromMemory_inside h op, rfl⟩

theorem State.storeAc_changes (hm : s.mem.wf = true) {ea : Int} (h : InMemory ea) :
    ∃ t, s.storeAc ea = .next t ∧ s.Changes t (s.pc + 1) s.ac s.sp t.mem ∧ s.StoresOnly t ea s.ac :=
  ⟨_, State.storeAc_inside h, rfl, State.storesOnly_of_setWord hm h rfl⟩

theorem State.jumpIf_changes {p : Prop} [Decidable p] {c : Bool} (hc : c = decide p) (a : Nat) :
    ∃ t, s.jumpIf c a = .next t ∧ s.Changes t (if p then a else s.pc + 1) s.ac s.sp s.mem := by
  have htarget : (if c then (a : Int) else s.pc + 1) = if p then (a : Int) else s.pc + 1 := by
    simp only [hc, decide_eq_true_eq]
  refine ⟨_, State.jumpIf_eq c a, ?_⟩
  rw [State.branch_eq, State.withoutAlu_pc, htarget]
  rfl

/-- Settles O14: each is the ALU's operation on the word at SP + off. -/
theorem localLoadAddSubtract : Obligations.LocalLoadAddSubtract := by
  unfold Obligations.LocalLoadAddSubtract
  intro s off _ hin
  exact ⟨State.aluFromMemory_changes hin .pass, State.aluFromMemory_changes hin .add,
    State.aluFromMemory_changes hin .sub⟩

/-- Settles O15: STOL is a store of AC at SP + off. -/
theorem stolStoresAc : Obligations.StolStoresAc := by
  unfold Obligations.StolStoresAc
  intro s off hm _ hin
  exact State.storeAc_changes hm hin

/-- Settles O18: each is a jump under its test, and each test decides what the rule says of AC. -/
theorem conditionalJumps : Obligations.ConditionalJumps := by
  unfold Obligations.ConditionalJumps
  intro s a _
  have hpos : isPositive s.ac = decide (0 ≤ s.ac) := rfl
  have hzero : isZero s.ac = decide (s.ac = 0) := rfl
  have hneg : isNegative s.ac = decide (s.ac < 0) := rfl
  have hnonzero : isNonzero s.ac = decide (s.ac ≠ 0) := rfl
  exact ⟨State.jumpIf_changes hpos a, State.jumpIf_changes hzero a, State.jumpIf_changes hneg a,
    State.jumpIf_changes hnonzero a⟩

/-- Settles O20: on a live stack RETN goes to the popped word. -/
theorem retnPopsTarget : Obligations.RetnPopsTarget := by
  unfold Obligations.RetnPopsTarget
  intro s hlow hhigh
  exact ⟨_, exec_retn_live hlow hhigh, rfl⟩

/-- Settles O26: both move SP without a check. -/
theorem stackPointerAdjustment : Obligations.StackPointerAdjustment := by
  unfold Obligations.StackPointerAdjustment
  intro s n _
  exact ⟨⟨_, exec_insp n, rfl⟩, ⟨_, exec_desp n, rfl⟩⟩

/-! ### The pop rule (R119) -/

/-- POPI on a live stack: the popped word is stored at the operand, and no other word is written. -/
theorem exec_popi_stores (hlow : 0 ≤ s.sp) (hhigh : s.sp < 4095) {y : Nat} (hy : InMemory (directEa y)) :
    ∃ t, exec (.popi y) s = .next t ∧ t.sp = s.sp + 1 ∧
      (s.mem.wf = true → t.word (directEa y) = s.word s.sp) ∧
      ∀ b, InMemory b → b ≠ directEa y → t.word b = s.word b :=
  ⟨_, exec_popi_live hlow hhigh hy, rfl,
    fun hm => (s.setSp (s.sp + 1)).word_setWord_same hm (directEa y) (s.word s.sp),
    fun _ hb hne => State.word_setWord_other (s := s.setSp (s.sp + 1)) hy.1 hb.1 hne (s.word s.sp)⟩

/-- Settles O24: the three ranges of SP, for each of the three instructions that pop. -/
theorem popRule : Obligations.PopRule := by
  unfold Obligations.PopRule
  intro s y hy
  refine ⟨fun hempty => ?_, fun hnegative => ?_, fun hlow hhigh => ⟨?_, ?_, ?_⟩⟩
  · simp only [List.forall_mem_cons]
    exact ⟨exec_retn_empty hempty, exec_pop_empty hempty y, exec_popi_empty hempty y, nofun⟩
  · simp only [List.forall_mem_cons]
    exact ⟨exec_retn_negative hnegative, exec_pop_negative hnegative y, exec_popi_negative hnegative y,
      nofun⟩
  · exact ⟨_, exec_retn_live hlow hhigh, rfl, rfl, rfl⟩
  · exact ⟨_, exec_pop_live hlow hhigh y, rfl, rfl, rfl⟩
  · exact exec_popi_stores hlow hhigh (inMemory_directEa (by omega))

end Sys2Proof.Machine
end

section
/-! PROOFS. O29: which instructions write AC, SP or another PC than PC + 1. -/

namespace Sys2Proof.Machine

/-- Settles O29: `exec_next` gives the frame, and each instruction's next state gives the registers it may
write. -/
theorem registerFrame : Obligations.RegisterFrame := by
  unfold Obligations.RegisterFrame
  intro i s t h
  refine ⟨(exec_next h).1, ?_⟩
  cases i with
  | lodd a | addd a | subd a | lodl a | addl a | subl a =>
    obtain ⟨-, rfl⟩ := State.aluFromMemory_next h
    exact ⟨fun _ => by simp [Instr.mnemonic], absurd rfl, absurd rfl⟩
  | loco k =>
    cases h
    exact ⟨fun _ => by simp [Instr.mnemonic], absurd rfl, absurd rfl⟩
  | swap a =>
    obtain ⟨-, rfl⟩ := exec_swap_next h
    exact ⟨fun _ => by simp [Instr.mnemonic], absurd rfl, absurd rfl⟩
  | stod a | stol a =>
    obtain ⟨-, rfl⟩ := State.storeAc_next h
    exact ⟨absurd rfl, absurd rfl, absurd rfl⟩
  | insp n | desp n =>
    cases h
    exact ⟨absurd rfl, fun _ => by simp [Instr.mnemonic], absurd rfl⟩
  | push k =>
    obtain ⟨-, rfl⟩ := exec_push_next h
    exact ⟨absurd rfl, fun _ => by simp [Instr.mnemonic], absurd rfl⟩
  | pshi a =>
    obtain ⟨-, -, rfl⟩ := exec_pshi_next h
    exact ⟨absurd rfl, fun _ => by simp [Instr.mnemonic], absurd rfl⟩
  | popi a =>
    obtain ⟨-, -, rfl⟩ := exec_popi_next h
    exact ⟨absurd rfl, fun _ => by simp [Instr.mnemonic], absurd rfl⟩
  | pop y =>
    obtain ⟨-, rfl⟩ := exec_pop_next h
    exact ⟨fun _ => by simp [Instr.mnemonic], fun _ => by simp [Instr.mnemonic], absurd rfl⟩
  | jump a | jpos a | jzer a | jneg a | jnze a =>
    obtain rfl := State.jumpIf_next h
    exact ⟨absurd rfl, absurd rfl, fun _ => by simp [Instr.mnemonic]⟩
  | call a =>
    obtain ⟨-, rfl⟩ := exec_call_next h
    exact ⟨absurd rfl, fun _ => by simp [Instr.mnemonic], fun _ => by simp [Instr.mnemonic]⟩
  | retn =>
    obtain ⟨-, rfl⟩ := exec_retn_next h
    exact ⟨absurd rfl, fun _ => by simp [Instr.mnemonic], fun _ => by simp [Instr.mnemonic]⟩

end Sys2Proof.Machine
end

section
/-! PROOFS. O34 and O42: the step that runs an instruction, and what it records. -/

namespace Sys2Proof.Machine

variable {s t : State}

/-- The step that fetches an instruction's word runs it on the fetched state and retires it (R112). -/
theorem step_instr {i : Instr} (hpc : InMemory s.pc) (h0 : s.word s.pc ≠ 0)
    (hdec : decode (s.word s.pc) = .instr i) : step s = finish i (exec i (s.setIr (s.word s.pc))) := by
  rw [step_inside hpc, if_neg h0, hdec, issue]

/-- Settles O34: retiring a next state and leaving any other outcome is what `finish` does. -/
theorem stepRunsDecodedInstruction : Obligations.StepRunsDecodedInstruction := by
  unfold Obligations.StepRunsDecodedInstruction
  intro s i hpc h0 hdec
  rw [step_instr hpc h0 hdec]
  cases exec i (s.setIr (s.word s.pc)) with
  | next t => rfl
  | fault f => rfl
  | refused r => rfl

/-- Whatever an instruction does, it writes the ALU trace under a tag (R123). -/
theorem exec_next_aluTrace {i : Instr} (h : exec i s = .next t) :
    t.aluTrace.operation = some (Config.freeAluTag s.draws) := by
  cases i with
  | lodd a | addd a | subd a | lodl a | addl a | subl a =>
    obtain ⟨-, rfl⟩ := State.aluFromMemory_next h
    rfl
  | stod a | stol a =>
    obtain ⟨-, rfl⟩ := State.storeAc_next h
    rfl
  | jump a | jpos a | jzer a | jneg a | jnze a =>
    obtain rfl := State.jumpIf_next h
    rfl
  | loco k | insp n | desp n =>
    cases h
    rfl
  | call a =>
    obtain ⟨-, rfl⟩ := exec_call_next h
    rfl
  | push k =>
    obtain ⟨-, rfl⟩ := exec_push_next h
    rfl
  | pshi a =>
    obtain ⟨-, -, rfl⟩ := exec_pshi_next h
    rfl
  | retn =>
    obtain ⟨-, rfl⟩ := exec_retn_next h
    rfl
  | pop y =>
    obtain ⟨-, rfl⟩ := exec_pop_next h
    rfl
  | popi a =>
    obtain ⟨-, -, rfl⟩ := exec_popi_next h
    rfl
  | swap a =>
    obtain ⟨-, rfl⟩ := exec_swap_next h
    rfl

/-- Settles O42: the instruction leaves IR and the records as the fetch did, and its retirement writes them. -/
theorem okStepIsRecorded : Obligations.OkStepIsRecorded := by
  unfold Obligations.OkStepIsRecorded
  intro s u hstep
  obtain ⟨-, -, i, t, hdec, hexec, rfl⟩ := step_next_iff.1 hstep
  have htrace : t.aluTrace.operation.isSome = true := Option.isSome_of_eq_some (exec_next_aluTrace hexec)
  obtain ⟨hframe, -⟩ := exec_next hexec
  unfold State.Changes at hframe
  rw [hframe]
  exact ⟨rfl, rfl, ⟨i, hdec, rfl⟩, htrace, ⟨_, rfl, rfl⟩, rfl, rfl⟩

end Sys2Proof.Machine
end

section
/-! PROOFS. What an instruction faults with, by the checks of R57 and R233. -/

namespace Sys2Proof.Machine

variable {s : State}

theorem accesses_setIr (i : Instr) (s : State) (w : Int) : accesses i (s.setIr w) = accesses i s := by
  cases i <;> rfl

/-- An operand that an extended field carries is an address inside memory (R200). -/
theorem inMemory_directEa_of_fitsExt {a : Nat} (h : fitsExt a = true) : InMemory (directEa a) :=
  inMemory_directEa (((fitsExt_iff a).1 h).trans (by decide))

theorem exec_underflow {i : Instr} (hpop : pops i = true) (hsp : 4095 ≤ s.sp) :
    exec i s = .fault (.stackUnderflow s.sp s) := by
  cases i with
  | retn => exact exec_retn_empty hsp
  | pop y => exact exec_pop_empty hsp y
  | popi a => exact exec_popi_empty hsp a
  | lodd | stod | addd | subd | jpos | jzer | jump | loco | lodl | stol | addl | subl | jneg | jnze | call | pshi
  | push | swap | insp | desp => cases hpop

/-- A pop that does not underflow and whose access is outside memory has a negative SP (R119). -/
theorem sp_negative_of_outside (hsp : s.sp < 4095) (hout : ¬ InMemory s.sp) : s.sp < 0 := by
  rw [inMemory_iff] at hout
  omega

/-- At most one of a well-formed instruction's accesses can be outside memory, since a direct address is inside:
that is the address it faults with. -/
theorem exec_access_outside {i : Instr} {x : Access} (hwf : i.wf = true) (hpop : pops i = true → s.sp < 4095)
    (hx : x ∈ accesses i s) (hout : ¬ InMemory x.addr) : exec i s = .fault (.outOfBounds x.addr s) := by
  cases i with
  | lodd a | addd a | subd a | lodl a | addl a | subl a =>
    obtain rfl := List.mem_singleton.1 hx
    exact State.aluFromMemory_outside hout _
  | stod a | stol a =>
    obtain rfl := List.mem_singleton.1 hx
    exact State.storeAc_outside hout
  | jump a | jpos a | jzer a | jneg a | jnze a | loco k | insp n | desp n => cases hx
  | call a =>
    obtain rfl := List.mem_singleton.1 hx
    exact exec_call_outside hout a
  | push k =>
    obtain rfl := List.mem_singleton.1 hx
    exact State.pushAndAdvance_outside hout k
  | pshi a =>
    have ha : InMemory (directEa a) := inMemory_directEa_of_fitsExt hwf
    obtain rfl | rfl := List.mem_pair.1 hx
    · exact absurd ha hout
    · exact exec_pshi_outside ha hout
  | retn =>
    obtain rfl := List.mem_singleton.1 hx
    exact exec_retn_negative (sp_negative_of_outside (hpop rfl) hout)
  | pop y =>
    obtain rfl := List.mem_singleton.1 hx
    exact exec_pop_negative (sp_negative_of_outside (hpop rfl) hout) y
  | popi a =>
    obtain rfl | rfl := List.mem_pair.1 hx
    · exact exec_popi_negative (sp_negative_of_outside (hpop rfl) hout) a
    · exact absurd (inMemory_directEa_of_fitsExt hwf) hout
  | swap a =>
    obtain rfl | rfl := List.mem_pair.1 hx
    · exact exec_swap_operand_outside hout
    · exact exec_swap_operand_outside hout

/-- What an instruction faults with (R231, R233): the stack check comes before the bounds check. -/
theorem exec_fault_iff {i : Instr} {f : Fault} (hwf : i.wf = true) :
    exec i s = .fault f ↔
      (pops i = true ∧ 4095 ≤ s.sp ∧ f = .stackUnderflow s.sp s) ∨
      ((pops i = true → s.sp < 4095) ∧
        ∃ x ∈ accesses i s, ¬ InMemory x.addr ∧ f = .outOfBounds x.addr s) := by
  constructor
  · intro h
    by_cases hpop : pops i = true → s.sp < 4095
    · have hfail : ¬ ChecksPass i s := fun hpass => by
        obtain ⟨t, ht⟩ := exec_next_of_checksPass hpass
        rw [ht] at h
        cases h
      have hsome : ∃ x ∈ accesses i s, ¬ InMemory x.addr := by
        by_contra hnone
        push Not at hnone
        exact hfail ⟨hpop, hnone⟩
      obtain ⟨x, hx, hout⟩ := hsome
      rw [exec_access_outside hwf hpop hx hout] at h
      cases h
      exact .inr ⟨hpop, x, hx, hout, rfl⟩
    · push Not at hpop
      obtain ⟨hpop, hsp⟩ := hpop
      rw [exec_underflow hpop hsp] at h
      cases h
      exact .inl ⟨hpop, hsp, rfl⟩
  · rintro (⟨hpop, hsp, rfl⟩ | ⟨hpop, x, hx, hout, rfl⟩)
    · exact exec_underflow hpop hsp
    · exact exec_access_outside hwf hpop hx hout

end Sys2Proof.Machine
end

section
/-! PROOFS. O38: the outcome of a step, by the checks of R112. -/

namespace Sys2Proof.Machine

variable {s t : State}

theorem eq_of_decode_illegal {w v : Int} (h : decode w = .illegal v) : v = w := by
  by_cases hw : 0 ≤ w ∧ w ≤ 0xFFFF
  · rw [decode_inside hw] at h
    obtain ⟨b, -, hb⟩ | ⟨-, e, -, he⟩ | ⟨-, -, hu⟩ := decodeWord_cases (BitVec.ofInt 16 w)
    · cases hb.symm.trans h
    · cases he.symm.trans h
    · cases hu.symm.trans h
  · rw [decode_outside hw] at h
    cases h
    rfl

/-- The state a step's fetch leaves (R112). -/
def State.fetched (s : State) : State := s.setIr (s.word s.pc)

/-- The step fetches an instruction's word and runs the instruction. -/
def State.Runs (s : State) (i : Instr) : Prop :=
  InMemory s.pc ∧ s.word s.pc ≠ 0 ∧ decode (s.word s.pc) = .instr i

theorem State.Runs.step_eq {i : Instr} (h : s.Runs i) : step s = finish i (exec i s.fetched) := by
  obtain ⟨hpc, h0, hdec⟩ := h
  exact step_instr hpc h0 hdec

/-- A word that is no instruction is not 0, and faults (R208, R234). -/
theorem step_not_instr (hpc : InMemory s.pc) (hnone : ∀ i, decode (s.word s.pc) ≠ .instr i) :
    step s = .fault (.illegalInstruction s.pc (s.word s.pc) s.fetched) := by
  have h0 : s.word s.pc ≠ 0 := fun h0 => hnone (.lodd 0) (by rw [h0]; decide)
  rw [step_inside hpc, if_neg h0]
  cases hdec : decode (s.word s.pc) with
  | instr i => exact absurd hdec (hnone i)
  | undef sub y => exact issue_undef sub y s.fetched
  | illegal v =>
    rw [eq_of_decode_illegal hdec]
    exact issue_illegal _ s.fetched

/-- The four ways a step can go (R112): no fetch, the sentinel, no instruction, an instruction. -/
theorem step_cases (s : State) :
    ¬ InMemory s.pc ∨ (InMemory s.pc ∧ s.word s.pc = 0) ∨
      (InMemory s.pc ∧ ∀ i, decode (s.word s.pc) ≠ .instr i) ∨ ∃ i, s.Runs i := by
  by_cases hpc : InMemory s.pc
  · by_cases h0 : s.word s.pc = 0
    · exact .inr (.inl ⟨hpc, h0⟩)
    · by_cases hdec : ∃ i, decode (s.word s.pc) = .instr i
      · obtain ⟨i, hi⟩ := hdec
        exact .inr (.inr (.inr ⟨i, hpc, h0, hi⟩))
      · exact .inr (.inr (.inl ⟨hpc, not_exists.1 hdec⟩))
  · exact .inl hpc

theorem State.Runs.step_fault_iff {i : Instr} {f : Fault} (h : s.Runs i) :
    step s = .fault f ↔
      (pops i = true ∧ 4095 ≤ s.sp ∧ f = .stackUnderflow s.sp s.fetched) ∨
      ((pops i = true → s.sp < 4095) ∧
        ∃ x ∈ accesses i s, ¬ InMemory x.addr ∧ f = .outOfBounds x.addr s.fetched) := by
  have ⟨_, _, hdec⟩ := h
  rw [h.step_eq, finish_fault_iff, exec_fault_iff (decode_wf hdec), State.fetched, accesses_setIr,
    State.setIr_sp]

/-- Every fault or halt of a step, by its cause. -/
theorem step_fault_iff {f : Fault} :
    step s = .fault f ↔
      (¬ InMemory s.pc ∧ f = .outOfBounds s.pc s) ∨
      (InMemory s.pc ∧ s.word s.pc = 0 ∧ f = .endOfProgram s.fetched) ∨
      (InMemory s.pc ∧ (∀ i, decode (s.word s.pc) ≠ .instr i) ∧
        f = .illegalInstruction s.pc (s.word s.pc) s.fetched) ∨
      (∃ i, s.Runs i ∧ pops i = true ∧ 4095 ≤ s.sp ∧ f = .stackUnderflow s.sp s.fetched) ∨
      (∃ i, s.Runs i ∧ (pops i = true → s.sp < 4095) ∧
        ∃ x ∈ accesses i s, ¬ InMemory x.addr ∧ f = .outOfBounds x.addr s.fetched) := by
  constructor
  · intro h
    obtain hpc | ⟨hpc, h0⟩ | ⟨hpc, hnone⟩ | ⟨i, hruns⟩ := step_cases s
    · cases (step_outside hpc).symm.trans h
      exact .inl ⟨hpc, rfl⟩
    · cases (step_sentinel hpc h0).symm.trans h
      exact .inr (.inl ⟨hpc, h0, rfl⟩)
    · cases (step_not_instr hpc hnone).symm.trans h
      exact .inr (.inr (.inl ⟨hpc, hnone, rfl⟩))
    · obtain hunder | hbounds := hruns.step_fault_iff.1 h
      · exact .inr (.inr (.inr (.inl ⟨i, hruns, hunder⟩)))
      · exact .inr (.inr (.inr (.inr ⟨i, hruns, hbounds⟩)))
  · rintro (⟨hpc, rfl⟩ | ⟨hpc, h0, rfl⟩ | ⟨hpc, hnone, rfl⟩ | ⟨i, hruns, hunder⟩ | ⟨i, hruns, hbounds⟩)
    · exact step_outside hpc
    · exact step_sentinel hpc h0
    · exact step_not_instr hpc hnone
    · exact hruns.step_fault_iff.2 (.inl hunder)
    · exact hruns.step_fault_iff.2 (.inr hbounds)

theorem finish_refused_iff {i : Instr} {o : Outcome} {q : Refusal} :
    finish i o = .refused q ↔ o = .refused q := by
  cases o <;> simp [finish]

theorem step_never_refuses (s : State) (q : Refusal) : step s ≠ .refused q := by
  obtain hpc | ⟨hpc, h0⟩ | ⟨hpc, hnone⟩ | ⟨i, hruns⟩ := step_cases s
  · rw [step_outside hpc]
    nofun
  · rw [step_sentinel hpc h0]
    nofun
  · rw [step_not_instr hpc hnone]
    nofun
  · rw [hruns.step_eq]
    intro h
    exact exec_never_refuses i s.fetched q (finish_refused_iff.1 h)

/-! Each condition picks its own causes from `step_fault_iff`. -/

theorem step_endOfProgram_iff :
    step s = .fault (.endOfProgram t) ↔ InMemory s.pc ∧ s.word s.pc = 0 ∧ t = s.fetched := by
  simp only [step_fault_iff, Fault.endOfProgram.injEq, reduceCtorEq, and_false, exists_false, or_false, false_or]

theorem step_outOfBounds_iff {a : Int} :
    step s = .fault (.outOfBounds a t) ↔
      (¬ InMemory s.pc ∧ a = s.pc ∧ t = s) ∨
      (∃ i, s.Runs i ∧ (pops i = true → s.sp < 4095) ∧
        (∃ x ∈ accesses i s, ¬ InMemory x.addr ∧ a = x.addr) ∧ t = s.fetched) := by
  simp only [step_fault_iff, Fault.outOfBounds.injEq, reduceCtorEq, and_false, exists_false, false_or,
    ← exists_and_right, and_assoc]

theorem step_stackUnderflow_iff {sp : Int} :
    step s = .fault (.stackUnderflow sp t) ↔
      ∃ i, s.Runs i ∧ pops i = true ∧ 4095 ≤ s.sp ∧ sp = s.sp ∧ t = s.fetched := by
  simp only [step_fault_iff, Fault.stackUnderflow.injEq, reduceCtorEq, and_false, exists_false, or_false, false_or]

theorem step_illegalInstruction_iff {pc v : Int} :
    step s = .fault (.illegalInstruction pc v t) ↔
      InMemory s.pc ∧ (∀ i, decode (s.word s.pc) ≠ .instr i) ∧ pc = s.pc ∧ v = s.word s.pc ∧ t = s.fetched := by
  simp only [step_fault_iff, Fault.illegalInstruction.injEq, reduceCtorEq, and_false, exists_false, or_false,
    false_or]

/-- `step_next_iff` with its causes put together as `State.Runs`. -/
theorem step_next_iff_runs :
    step s = .next t ↔ ∃ i u, s.Runs i ∧ exec i s.fetched = .next u ∧ t = u.retire i := by
  constructor
  · intro h
    obtain ⟨hpc, h0, i, u, hdec, hexec, rfl⟩ := step_next_iff.1 h
    exact ⟨i, u, ⟨hpc, h0, hdec⟩, hexec, rfl⟩
  · rintro ⟨i, u, ⟨hpc, h0, hdec⟩, hexec, rfl⟩
    exact step_next_iff.2 ⟨hpc, h0, i, u, hdec, hexec, rfl⟩

/-- Settles O38: an `Ok` step by its inversion, a fault or halt by the causes of its condition. -/
theorem stepHasThreeOutcomes : Obligations.StepHasThreeOutcomes := by
  unfold Obligations.StepHasThreeOutcomes
  exact fun s => ⟨fun _ => step_next_iff_runs, fun _ => step_endOfProgram_iff,
    fun _ _ => step_outOfBounds_iff, fun _ _ => step_stackUnderflow_iff,
    fun _ _ _ => step_illegalInstruction_iff, step_never_refuses s⟩

end Sys2Proof.Machine
end

section
/-! PROOFS. O11, O12 and O13: the direct loads, adds, subtracts and stores, and the immediate load, each by the
state it leaves. -/

namespace Sys2Proof.Machine

/-- Settles O11: an address 0..4095 is inside memory, where each is the ALU's operation on the word there. -/
theorem directLoadAddSubtract : Obligations.DirectLoadAddSubtract := by
  unfold Obligations.DirectLoadAddSubtract
  intro s a ha
  have hin : InMemory (directEa a) := inMemory_directEa ha
  exact ⟨State.aluFromMemory_changes hin .pass, State.aluFromMemory_changes hin .add,
    State.aluFromMemory_changes hin .sub⟩

/-- Settles O12: an address 0..4095 is inside memory, where STOD is a store of AC. -/
theorem stodStoresAc : Obligations.StodStoresAc := by
  unfold Obligations.StodStoresAc
  intro s a hm ha
  exact State.storeAc_changes hm (inMemory_directEa ha)

/-- Settles O13: LOCO passes its immediate through the ALU and accesses no memory, so nothing can fail. -/
theorem locoLoadsConstant : Obligations.LocoLoadsConstant := by
  unfold Obligations.LocoLoadsConstant
  intro s k _ _
  exact ⟨_, exec_loco k, rfl⟩

end Sys2Proof.Machine
end

section
/-! PROOFS. O17, O32 and O33: the jump, and a word pushed and then popped again. -/

namespace Sys2Proof.Machine

variable {s t : State}

/-- Settles O17: a jump under a test that always holds. -/
theorem jumpGoesToTarget : Obligations.JumpGoesToTarget := by
  unfold Obligations.JumpGoesToTarget
  intro s a _
  exact ⟨_, State.jumpIf_eq true a, rfl⟩

/-! ### The stack before and after a push (R118, R119) -/

/-- On a stack with room, a push stores inside memory. -/
theorem State.inMemory_pushAddr (hlow : 1 ≤ s.sp) (hhigh : s.sp ≤ 4095) : InMemory s.pushAddr := by
  rw [inMemory_iff, State.pushAddr]
  omega

/-- Where SP is as a push on a stack with room left it, a pop is live. -/
theorem State.live_of_sp_eq_pushAddr (hlow : 1 ≤ s.sp) (hhigh : s.sp ≤ 4095) (ht : t.sp = s.pushAddr) :
    0 ≤ t.sp ∧ t.sp < 4095 := by
  rw [ht, State.pushAddr]
  omega

/-- The pop that follows a push raises SP to where it was. -/
theorem State.sp_eq_of_sp_eq_pushAddr (ht : t.sp = s.pushAddr) : t.sp + 1 = s.sp := by
  rw [ht, State.pushAddr, sub_add_cancel]

/-- Settles O32: SP addresses the pushed return address, so RETN pops it. -/
theorem returnAfterCall : Obligations.ReturnAfterCall := by
  unfold Obligations.ReturnAfterCall
  intro s a hm _ hlow hhigh
  refine ⟨_, exec_call_inside (State.inMemory_pushAddr hlow hhigh) a, fun r hsp htop => ?_⟩
  obtain ⟨hlow', hhigh'⟩ := State.live_of_sp_eq_pushAddr hlow hhigh hsp
  have hreturn : r.word r.sp = s.pc + 1 :=
    htop.trans (State.word_setWord_same hm s.pushAddr (s.pc + 1))
  exact ⟨_, exec_retn_live hlow' hhigh', hreturn, State.sp_eq_of_sp_eq_pushAddr hsp⟩

/-! ### Pairs of PUSH and POP -/

theorem execAll_cons_of_next {i : Instr} (h : exec i s = .next t) (is : List Instr) :
    execAll (i :: is) s = execAll is t := by
  rw [execAll, h]

/-- On a stack with room PUSH leaves its immediate on top (R203). -/
theorem exec_push_top (hm : s.mem.wf = true) (hlow : 1 ≤ s.sp) (hhigh : s.sp ≤ 4095) (k : Nat) :
    ∃ t, exec (.push k) s = .next t ∧
      t.sp = s.pushAddr ∧ t.pc = s.pc + 1 ∧ t.word t.sp = k ∧ t.mem.wf = true :=
  have hin : InMemory s.pushAddr := State.inMemory_pushAddr hlow hhigh
  ⟨_, State.pushAndAdvance_inside hin k, rfl, rfl, State.word_setWord_same hm s.pushAddr k,
    State.wf_setWord hm hin k⟩

/-- One pair moves the immediate to AC through the stack, and keeps what the next pair asks for. -/
theorem exec_push_pop (hm : s.mem.wf = true) (hlow : 1 ≤ s.sp) (hhigh : s.sp ≤ 4095) (k y : Nat) :
    ∃ t u, exec (.push k) s = .next t ∧ exec (.pop y) t = .next u ∧
      u.sp = s.sp ∧ u.pc = s.pc + 2 ∧ u.ac = k ∧ u.mem.wf = true := by
  obtain ⟨t, hpush, hsp, hpc, htop, hwf⟩ := exec_push_top hm hlow hhigh k
  obtain ⟨hlow', hhigh'⟩ := State.live_of_sp_eq_pushAddr hlow hhigh hsp
  have hpc2 : t.pc + 1 = s.pc + 2 := by omega
  exact ⟨t, _, hpush, exec_pop_live hlow' hhigh' y, State.sp_eq_of_sp_eq_pushAddr hsp, hpc2, htop, hwf⟩

/-- Settles O33: by induction on the immediates, each pair starting where the one before it ended. -/
theorem pushPopPairs : Obligations.PushPopPairs := by
  unfold Obligations.PushPopPairs
  intro ks
  induction ks with
  | nil => exact fun s _ _ _ _ => ⟨s, rfl, rfl, by simp, rfl⟩
  | cons k ks ih =>
    intro s hm hks hlow hhigh
    obtain ⟨-, hks⟩ := List.forall_mem_cons.1 hks
    obtain ⟨t, u, hpush, hpop, husp, hupc, huac, hwf⟩ := exec_push_pop hm hlow hhigh k 0
    obtain ⟨v, hrun, hvsp, hvpc, hvac⟩ := ih u hwf hks (husp ▸ hlow) (husp ▸ hhigh)
    refine ⟨v, ?_, hvsp.trans husp, ?_, ?_⟩
    · rw [List.flatMap_cons, List.cons_append, execAll_cons_of_next hpush, List.cons_append,
        execAll_cons_of_next hpop, List.nil_append, hrun]
    · rw [hvpc, hupc, List.length_cons]
      push_cast
      ring
    · rw [hvac, huac, List.getLast?_cons]
      cases ks.getLast? <;> rfl

end Sys2Proof.Machine
end

section
/-! PROOFS. O21, O23 and O25: the pushes, POPI and POP, and SWAP, each by the state it leaves. -/

namespace Sys2Proof.Machine

variable {s : State}

/-- A push inside memory: SP follows to the word stored below it, and AC stays (R118). -/
theorem State.pushAndAdvance_changes (hm : s.mem.wf = true) (h : InMemory s.pushAddr) (v : Int) :
    ∃ t, s.pushAndAdvance v = .next t ∧ s.Changes t (s.pc + 1) s.ac (s.sp - 1) t.mem ∧
      s.StoresOnly t s.pushAddr v :=
  ⟨_, State.pushAndAdvance_inside h v, rfl, State.storesOnly_of_setWord hm h rfl⟩

/-- PSHI is a push of the word its address reads, and that read comes before the store (R201). -/
theorem exec_pshi_eq_pushAndAdvance {a : Nat} (ha : InMemory (directEa a)) :
    exec (.pshi a) s = s.pushAndAdvance (s.word (directEa a)) := by
  by_cases h : InMemory s.pushAddr
  · rw [exec_pshi_inside ha h, State.pushAndAdvance_inside h]
  · rw [exec_pshi_outside ha h, State.pushAndAdvance_outside h]

/-- Settles O21: both are a push, PSHI's of the word at its address, which is inside memory. -/
theorem pushesStoreBelowSp : Obligations.PushesStoreBelowSp := by
  unfold Obligations.PushesStoreBelowSp
  intro s y hm hy hpush
  have hy : InMemory (directEa y) := inMemory_directEa (by omega)
  constructor
  · rw [exec_pshi_eq_pushAndAdvance hy]
    exact State.pushAndAdvance_changes hm hpush (s.word (directEa y))
  · rw [exec_push]
    exact State.pushAndAdvance_changes hm hpush y

/-- Settles O23: on a live stack POPI stores the popped word at an address inside memory, and POP passes it
to AC. -/
theorem popsTakeTopOfStack : Obligations.PopsTakeTopOfStack := by
  unfold Obligations.PopsTakeTopOfStack
  intro s y hy hlow hhigh
  have hy : InMemory (directEa y) := inMemory_directEa (by omega)
  constructor
  · exact fun hm => ⟨_, exec_popi_live hlow hhigh hy, rfl, State.storesOnly_of_setWord hm hy rfl⟩
  · exact ⟨_, exec_pop_live hlow hhigh y, rfl⟩

/-- Settles O25: an address 0..255 is inside memory, where SWAP stores AC and passes the old word to AC. -/
theorem swapExchanges : Obligations.SwapExchanges := by
  unfold Obligations.SwapExchanges
  intro s a hm ha
  have hin : InMemory (directEa a) := inMemory_directEa (by omega)
  exact ⟨_, exec_swap_inside hin, rfl, State.storesOnly_of_setWord hm hin rfl⟩

end Sys2Proof.Machine
end

section
/-! PROOFS. O39 and O41: the checks of a step in their order, and the step after a fault or a halt. -/

namespace Sys2Proof.Machine

variable {s : State}

/-- The word 0 would decode to LODD 0 (R81), so a word that is no instruction is another. -/
theorem ne_zero_of_not_instr {w : Int} (h : ∀ i, decode w ≠ .instr i) : w ≠ 0 := by
  rintro rfl
  exact h (.lodd 0) (by decide)

/-- Settles O39: the causes of `step_fault_iff` come in the order of the checks, and an instruction underflows
exactly where it pops an empty stack. -/
theorem stepChecksInOrder : Obligations.StepChecksInOrder := by
  unfold Obligations.StepChecksInOrder
  intro s f h
  obtain ⟨hpc, rfl⟩ | ⟨hpc, h0, rfl⟩ | ⟨hpc, hnone, rfl⟩ | ⟨i, ⟨hpc, h0, hdec⟩, hpop, hsp, rfl⟩ |
    ⟨i, ⟨hpc, h0, hdec⟩, hlive, x, -, -, rfl⟩ := step_fault_iff.1 h
  · exact .inl ⟨hpc, rfl⟩
  · exact .inr (.inl ⟨hpc, h0, rfl⟩)
  · exact .inr (.inr (.inl ⟨hpc, ne_zero_of_not_instr hnone, hnone, rfl⟩))
  · exact .inr (.inr (.inr ⟨hpc, h0, i, hdec, (if_pos ⟨hpop, hsp⟩).symm⟩))
  · have hlive' : ¬ (pops i = true ∧ 4095 ≤ s.sp) := fun hempty => not_le.2 (hlive hempty.1) hempty.2
    exact .inr (.inr (.inr ⟨hpc, h0, i, hdec, (if_neg hlive').symm⟩))

/-! ### Stepping again (R240) -/

/-- A fetch writes only IR and what the spec leaves unspecified, so fetching again changes nothing specified. -/
theorem State.agree_fetched_fetched (s : State) : s.fetched.fetched.Agree s.fetched :=
  ⟨rfl, rfl, rfl, rfl, rfl, rfl, rfl, rfl, rfl, rfl⟩

/-- A fetch leaves PC and memory, so the next one gets the same instruction. -/
theorem State.Runs.fetched {i : Instr} (h : s.Runs i) : s.fetched.Runs i := h

theorem accesses_fetched (i : Instr) (s : State) : accesses i s.fetched = accesses i s := accesses_setIr i s _

/-- Settles O41: a fault or halt leaves the state itself or the fetched state, where its cause stands again. -/
theorem faultsRepeat : Obligations.FaultsRepeat := by
  unfold Obligations.FaultsRepeat
  intro s f h
  obtain ⟨hpc, rfl⟩ | ⟨hpc, h0, rfl⟩ | ⟨hpc, hnone, rfl⟩ | ⟨i, hruns, hpop, hsp, rfl⟩ |
    ⟨i, hruns, hlive, x, hx, hout, rfl⟩ := step_fault_iff.1 h
  · exact ⟨_, step_outside hpc, rfl, rfl, State.Agree.refl s⟩
  · exact ⟨_, step_sentinel (s := s.fetched) hpc h0, rfl, rfl, s.agree_fetched_fetched⟩
  · exact ⟨_, step_not_instr (s := s.fetched) hpc hnone, rfl, rfl, s.agree_fetched_fetched⟩
  · exact ⟨_, hruns.fetched.step_fault_iff.2 (.inl ⟨hpop, hsp, rfl⟩), rfl, rfl, s.agree_fetched_fetched⟩
  · have hx : x ∈ accesses i s.fetched := accesses_fetched i s ▸ hx
    exact ⟨_, hruns.fetched.step_fault_iff.2 (.inr ⟨hlive, x, hx, hout, rfl⟩), rfl, rfl,
      s.agree_fetched_fetched⟩

end Sys2Proof.Machine
end

section
/-! PROOFS. O50 and O60: the host's step call and what repeats it, `run`'s loop and `continue`. -/

namespace Sys2Proof.Machine

variable {s t : State}

/-! ### What an `Ok` step and a fault do to the count, and to Running -/

theorem step_next_cycleCount (h : step s = .next t) : t.cycleCount = s.cycleCount + 1 := by
  obtain ⟨-, hcount, -⟩ := okStepIsRecorded s t h
  exact hcount

theorem State.OnlyFetched.cycleCount_eq (h : s.OnlyFetched t) : t.cycleCount = s.cycleCount := by
  unfold State.OnlyFetched at h
  rw [h]

/-- The engine is Running, as during a `run` call (spec/10_state.md R33, R34). -/
def State.IsRunning (s : State) : Prop := s.running = true ∧ s.mode = .running

theorem State.isRunning_startRun (s : State) : s.startRun.IsRunning := ⟨rfl, rfl⟩

theorem State.IsRunning.of_step_next (hs : s.IsRunning) (h : step s = .next t) : t.IsRunning := by
  obtain ⟨-, -, -, -, -, hrunning, hmode⟩ := okStepIsRecorded s t h
  exact ⟨hrunning.trans hs.1, hmode.trans hs.2⟩

theorem State.IsRunning.of_okSteps {k : Nat} (hs : s.IsRunning) (h : s.OkSteps k t) : t.IsRunning := by
  induction k generalizing s with
  | zero => exact h ▸ hs
  | succ k ih =>
    obtain ⟨u, hu, hsteps⟩ := h
    exact ih (hs.of_step_next hu) hsteps

/-- The state of a run under way, put Idle between two calls, is what the second call starts from. -/
theorem State.IsRunning.startRun_idle (hs : s.IsRunning) : s.idle.startRun = s := by
  cases s
  obtain ⟨rfl, rfl⟩ := hs
  rfl

/-! ### The step call -/

theorem State.stepCall_next (h : step s = .next t) : s.stepCall = (t, .ok) := by
  rw [State.stepCall, h]

theorem State.stepCall_fault {f : Fault} (h : step s = .fault f) : s.stepCall = (f.after, .stopped f) := by
  rw [State.stepCall, h]

/-- The two ways a step call ends: a step is never refused (R111). -/
theorem State.stepCall_cases (s : State) :
    (∃ t, step s = .next t ∧ s.stepCall = (t, .ok)) ∨
      ∃ f, step s = .fault f ∧ s.stepCall = (f.after, .stopped f) := by
  cases h : step s with
  | next t => exact .inl ⟨t, rfl, State.stepCall_next h⟩
  | fault f => exact .inr ⟨f, rfl, State.stepCall_fault h⟩
  | refused q => exact absurd h (step_never_refuses s q)

/-! ### The loop of a run (R268) -/

theorem State.runLoop_next (h : step s = .next t) (m : Int) (n : Nat) :
    s.runLoop m (n + 1) = t.runLoop m n := by
  rw [State.runLoop_succ, State.stepCall_next h, if_pos rfl]

theorem State.runLoop_fault {f : Fault} (h : step s = .fault f) (m : Int) (n : Nat) :
    s.runLoop m (n + 1) = (f.after, .stopped f) := by
  rw [State.runLoop_succ, State.stepCall_fault h, if_neg nofun]

/-- The loop goes on after `Ok` steps as from the state they reach. -/
theorem State.runLoop_okSteps {k : Nat} (h : s.OkSteps k t) (m : Int) (n : Nat) :
    s.runLoop m (k + n) = t.runLoop m n := by
  induction k generalizing s with
  | zero => rw [Nat.zero_add, show t = s from h]
  | succ k ih =>
    obtain ⟨u, hu, hsteps⟩ := h
    rw [Nat.succ_add_eq_add_succ, Nat.add_succ, State.runLoop_next hu, ih hsteps]

/-- A loop that trips the guard made all its steps, each `Ok` (R235). -/
theorem State.okSteps_of_runLoop {m : Int} {n : Nat} {k : Int}
    (h : (s.runLoop m n).2 = .maxCyclesExceeded k) : s.OkSteps n (s.runLoop m n).1 := by
  induction n generalizing s with
  | zero => rfl
  | succ n ih =>
    obtain ⟨t, ht, -⟩ | ⟨f, hf, -⟩ := s.stepCall_cases
    · rw [State.runLoop_next ht] at h ⊢
      exact ⟨t, ht, ih h⟩
    · rw [State.runLoop_fault hf] at h
      cases h

/-- The guard's value is only reported: another one changes neither the state nor the condition. -/
theorem State.runLoop_guard (s : State) (m m' : Int) (n : Nat) :
    (s.runLoop m n).1 = (s.runLoop m' n).1 ∧ (s.runLoop m n).2.code = (s.runLoop m' n).2.code := by
  induction n generalizing s with
  | zero => exact ⟨rfl, rfl⟩
  | succ n ih =>
    obtain ⟨t, ht, -⟩ | ⟨f, hf, -⟩ := s.stepCall_cases
    · rw [State.runLoop_next ht, State.runLoop_next ht]
      exact ih t
    · rw [State.runLoop_fault hf, State.runLoop_fault hf]
      exact ⟨rfl, rfl⟩

theorem Status.idle_eq_maxCyclesExceeded_iff {st : Status} {n : Int} :
    st.idle = .maxCyclesExceeded n ↔ st = .maxCyclesExceeded n := by
  cases st <;> simp [Status.idle]

/-- A run that trips its guard made that many `Ok` steps, and leaves the state they reach, Idle. -/
theorem State.okSteps_of_run {n k : Int} (h : (s.run n).2 = .maxCyclesExceeded k) :
    ∃ t, s.startRun.OkSteps n.toNat t ∧ (s.run n).1 = t.idle := by
  rw [State.run_eq, Status.idle_eq_maxCyclesExceeded_iff] at h
  exact ⟨_, State.okSteps_of_runLoop h, rfl⟩

/-- Settles O50: the second run starts from where the first one's loop stood, and one loop with both guards
passes there. -/
theorem runContinues : Obligations.RunContinues := by
  unfold Obligations.RunContinues
  intro s m n hm hn h
  obtain ⟨t, hsteps, hreached⟩ := State.okSteps_of_run h
  have hresume : t.idle.startRun = t := (s.isRunning_startRun.of_okSteps hsteps).startRun_idle
  obtain ⟨hstate, hcode⟩ := t.runLoop_guard n (m + n) n.toNat
  rw [hreached, State.run_eq, State.run_eq, hresume, Int.toNat_add hm hn, State.runLoop_okSteps hsteps]
  exact ⟨congrArg State.idle hstate, by rw [Status.idle_code, Status.idle_code, hcode]⟩

/-! ### The controller's step and `continue` (R249, R250) -/

theorem Controller.step_engine (c : Controller) : c.step.1.engine = c.engine.stepCall.1 := rfl

theorem Controller.step_currentLine (c : Controller) :
    c.step.1.debugInfo.currentLine =
      if c.engine.stepCall.2 = .ok then c.debugInfo.currentLine + 1 else c.debugInfo.currentLine := rfl

/-- A controller step counts a line exactly where the engine counts a cycle. -/
theorem Controller.step_counts (c : Controller) :
    c.step.1.debugInfo.currentLine - c.debugInfo.currentLine =
      c.step.1.engine.cycleCount - c.engine.cycleCount := by
  rw [Controller.step_currentLine, Controller.step_engine]
  obtain ⟨t, ht, hcall⟩ | ⟨f, hf, hcall⟩ := c.engine.stepCall_cases
  · rw [hcall, if_pos rfl, step_next_cycleCount ht, add_sub_cancel_left, add_sub_cancel_left]
  · rw [hcall, if_neg nofun, (step_fault_onlyFetched hf).cycleCount_eq, sub_self, sub_self]

theorem Controller.continueFor_zero (c : Controller) : c.continueFor 0 = none := rfl

/-- One round of `continue`: it returns with the step's result, or goes on from the state the step left. -/
theorem Controller.continueFor_succ {c d : Controller} {n : Nat} {st : Status}
    (h : c.continueFor (n + 1) = some (d, st)) : c.step = (d, st) ∨ c.step.1.continueFor n = some (d, st) := by
  simp only [Controller.continueFor] at h
  split at h
  · exact .inl (Option.some.inj h)
  · exact .inr h

/-- Settles O60: by induction on the rounds, each of which is a controller step. -/
theorem continueCountsLines : Obligations.ContinueCountsLines := by
  unfold Obligations.ContinueCountsLines
  intro n
  induction n with
  | zero =>
    intro c d st h
    rw [Controller.continueFor_zero] at h
    cases h
  | succ n ih =>
    intro c d st h
    have hstep := c.step_counts
    obtain hlast | hrest := Controller.continueFor_succ h
    · rwa [hlast] at hstep
    · have hrounds := ih c.step.1 d st hrest
      omega

end Sys2Proof.Machine
end

section
/-! PROOFS. O45: agreement of two states as a relation that every operation of a step keeps. -/

namespace Sys2Proof.Machine

variable {s t : State}

/-! ### Agreeing states stay so under the same update -/

theorem State.Agree.word_eq (h : s.Agree t) (a : Int) : s.word a = t.word a := by
  obtain ⟨-, -, -, -, hmem, -⟩ := h
  exact State.word_congr hmem a

theorem State.Agree.pc_eq (h : s.Agree t) : s.pc = t.pc := by
  obtain ⟨hpc, -⟩ := h
  exact hpc

theorem State.Agree.ac_eq (h : s.Agree t) : s.ac = t.ac := by
  obtain ⟨-, hac, -⟩ := h
  exact hac

theorem State.Agree.sp_eq (h : s.Agree t) : s.sp = t.sp := by
  obtain ⟨-, -, hsp, -⟩ := h
  exact hsp

theorem State.Agree.ir_eq (h : s.Agree t) : s.ir = t.ir := by
  obtain ⟨-, -, -, hir, -⟩ := h
  exact hir

theorem State.Agree.pushAddr_eq (h : s.Agree t) : s.pushAddr = t.pushAddr := congrArg (· - 1) h.sp_eq

theorem State.Agree.localEa_eq (h : s.Agree t) (off : Nat) : s.localEa off = t.localEa off :=
  congrArg (· + (off : Int)) h.sp_eq

theorem State.Agree.setWord (h : s.Agree t) (a v : Int) : (s.setWord a v).Agree (t.setWord a v) := by
  obtain ⟨hpc, hac, hsp, hir, hmem, hrest⟩ := h
  exact ⟨hpc, hac, hsp, hir, congrArg (Memory.write · a.toNat v) hmem, hrest⟩

theorem State.Agree.setSp (h : s.Agree t) (v : Int) : (s.setSp v).Agree (t.setSp v) := by
  obtain ⟨hpc, hac, -, hrest⟩ := h
  exact ⟨hpc, hac, rfl, hrest⟩

theorem State.Agree.goTo (h : s.Agree t) (a : Int) : (s.goTo a).Agree (t.goTo a) := by
  obtain ⟨-, hrest⟩ := h
  exact ⟨rfl, hrest⟩

theorem State.Agree.advance (h : s.Agree t) : s.advance.Agree t.advance := by
  rw [State.advance_eq, State.advance_eq, h.pc_eq]
  exact h.goTo _

theorem State.Agree.branch (h : s.Agree t) (c : Bool) (a : Int) : (s.branch c a).Agree (t.branch c a) := by
  rw [State.branch_eq, State.branch_eq, h.pc_eq]
  exact h.goTo _

/-- The ALU's result depends on AC alone; the trace it leaves is not compared. -/
theorem State.Agree.aluToAc (h : s.Agree t) (op : AluOp) (b : Int) : (s.aluToAc op b).Agree (t.aluToAc op b) := by
  obtain ⟨hpc, hac, hrest⟩ := h
  exact ⟨hpc, congrArg (alu op · b) hac, hrest⟩

theorem State.Agree.withoutAlu (h : s.Agree t) : s.withoutAlu.Agree t.withoutAlu := h

/-- The registers a fetch draws are not compared. -/
theorem State.Agree.setIr (h : s.Agree t) (w : Int) : (s.setIr w).Agree (t.setIr w) := by
  obtain ⟨hpc, hac, hsp, -, hrest⟩ := h
  exact ⟨hpc, hac, hsp, rfl, hrest⟩

/-- Of the records a retirement writes only the count, the instruction and the entry's number are compared. -/
theorem State.Agree.retire (h : s.Agree t) (i : Instr) : (s.retire i).Agree (t.retire i) := by
  obtain ⟨hpc, hac, hsp, hir, hmem, hcount, hrunning, hmode, -, hhistory⟩ := h
  refine ⟨hpc, hac, hsp, hir, hmem, congrArg (· + 1) hcount, hrunning, hmode, rfl, ?_⟩
  simp only [State.retire_history, List.map_append, List.map_cons, List.map_nil, hhistory, hcount]

theorem State.Agree.startRun (h : s.Agree t) : s.startRun.Agree t.startRun := by
  obtain ⟨hpc, hac, hsp, hir, hmem, hcount, -, -, hrest⟩ := h
  exact ⟨hpc, hac, hsp, hir, hmem, hcount, rfl, rfl, hrest⟩

theorem State.Agree.idle (h : s.Agree t) : s.idle.Agree t.idle := by
  obtain ⟨hpc, hac, hsp, hir, hmem, hcount, -, -, hrest⟩ := h
  exact ⟨hpc, hac, hsp, hir, hmem, hcount, rfl, rfl, hrest⟩

/-! ### The checked operations -/

/-- Two checked operations agree: both raise the same trap, or both complete with results that `R` relates. -/
def ResultsAgree {α : Type} (R : α → α → Prop) (x y : Except Trap α) : Prop :=
  match x, y with
  | .ok a, .ok b => R a b
  | .error d, .error e => d = e
  | _, _ => False

theorem ResultsAgree.bind {α β : Type} {R : α → α → Prop} {Q : β → β → Prop} {x y : Except Trap α}
    {f g : α → Except Trap β} (h : ResultsAgree R x y) (hfg : ∀ a b, R a b → ResultsAgree Q (f a) (g b)) :
    ResultsAgree Q (x >>= f) (y >>= g) := by
  cases x with
  | ok a =>
    cases y with
    | ok b => exact hfg a b h
    | error e => exact h.elim
  | error d =>
    cases y with
    | ok b => exact h.elim
    | error e => exact h

theorem State.Agree.memRead (h : s.Agree t) (a : Int) : ResultsAgree (· = ·) (s.memRead a) (t.memRead a) := by
  by_cases hin : InMemory a
  · rw [State.memRead_inside hin, State.memRead_inside hin]
    exact h.word_eq a
  · rw [State.memRead_outside hin, State.memRead_outside hin]
    rfl

theorem State.Agree.memWrite (h : s.Agree t) (a v : Int) :
    ResultsAgree State.Agree (s.memWrite a v) (t.memWrite a v) := by
  by_cases hin : InMemory a
  · rw [State.memWrite_inside hin, State.memWrite_inside hin]
    exact h.setWord a v
  · rw [State.memWrite_outside hin, State.memWrite_outside hin]
    rfl

theorem State.Agree.push (h : s.Agree t) (v : Int) : ResultsAgree State.Agree (s.push v) (t.push v) := by
  unfold State.push
  rw [h.pushAddr_eq]
  exact (h.memWrite _ v).bind fun _ _ hw => hw.setSp _

/-- Two pops agree: one word, and states that agree. -/
inductive PopsAgree : Int × State → Int × State → Prop
  | intro {v : Int} {u w : State} (h : u.Agree w) : PopsAgree (v, u) (v, w)

theorem State.Agree.pop (h : s.Agree t) : ResultsAgree PopsAgree s.pop t.pop := by
  unfold State.pop
  rw [h.sp_eq]
  split
  · rfl
  · exact (h.memRead _).bind fun _ _ hv => hv ▸ .intro (h.setSp _)

/-- Commit or nothing (R122): the fault of an agreeing trap leaves the states it began with. -/
theorem State.Agree.commit (h : s.Agree t) {x y : Except Trap State} (hxy : ResultsAgree State.Agree x y) :
    Outcome.Agree (s.commit x) (t.commit y) := by
  cases x with
  | ok a =>
    cases y with
    | ok b => exact hxy
    | error e => exact hxy.elim
  | error d =>
    cases y with
    | ok b => exact hxy.elim
    | error e =>
      obtain rfl : d = e := hxy
      cases d <;> exact ⟨rfl, rfl, h⟩

/-! ### The instructions -/

theorem State.Agree.aluFromMemory (h : s.Agree t) (op : AluOp) (ea : Int) :
    Outcome.Agree (s.aluFromMemory op ea) (t.aluFromMemory op ea) :=
  h.commit ((h.memRead ea).bind fun _ _ hv => hv ▸ (h.aluToAc op _).advance)

theorem State.Agree.storeAc (h : s.Agree t) (ea : Int) : Outcome.Agree (s.storeAc ea) (t.storeAc ea) := by
  unfold State.storeAc
  rw [h.ac_eq]
  exact h.commit ((h.memWrite ea _).bind fun _ _ hw => hw.withoutAlu.advance)

theorem State.Agree.pushAndAdvance (h : s.Agree t) (v : Int) :
    Outcome.Agree (s.pushAndAdvance v) (t.pushAndAdvance v) :=
  h.commit ((h.push v).bind fun _ _ hw => hw.withoutAlu.advance)

theorem State.Agree.jumpIf (h : s.Agree t) (c : Bool) (a : Nat) : Outcome.Agree (s.jumpIf c a) (t.jumpIf c a) :=
  h.withoutAlu.branch c a

/-- An instruction reads nothing that agreeing states may differ in. -/
theorem exec_agree (h : s.Agree t) (i : Instr) : Outcome.Agree (exec i s) (exec i t) := by
  cases i with
  | lodd a | addd a | subd a => exact h.aluFromMemory _ _
  | stod a => exact h.storeAc _
  | lodl off | addl off | subl off =>
    simp only [exec_lodl, exec_addl, exec_subl, h.localEa_eq]
    exact h.aluFromMemory _ _
  | stol off =>
    rw [exec_stol, exec_stol, h.localEa_eq]
    exact h.storeAc _
  | jump a => exact h.jumpIf true a
  | jpos a | jzer a | jneg a | jnze a =>
    simp only [exec_jpos, exec_jzer, exec_jneg, exec_jnze, h.ac_eq]
    exact h.jumpIf _ a
  | loco k => exact (h.aluToAc .pass k).advance
  | insp n | desp n =>
    simp only [exec_insp, exec_desp, h.sp_eq]
    exact (h.setSp _).withoutAlu.advance
  | call a =>
    unfold exec execCall
    rw [h.pc_eq]
    exact h.commit ((h.push _).bind fun _ _ hw => hw.withoutAlu.goTo _)
  | push k => exact h.pushAndAdvance k
  | pshi a =>
    exact h.commit ((h.memRead _).bind fun _ _ hv => hv ▸ (h.push _).bind fun _ _ hw => hw.withoutAlu.advance)
  | retn => exact h.commit (h.pop.bind fun _ _ ⟨hu⟩ => hu.withoutAlu.goTo _)
  | pop y => exact h.commit (h.pop.bind fun _ _ ⟨hu⟩ => (hu.aluToAc _ _).advance)
  | popi a =>
    exact h.commit (h.pop.bind fun _ _ ⟨hu⟩ => (hu.memWrite _ _).bind fun _ _ hw => hw.withoutAlu.advance)
  | swap a =>
    unfold exec execSwap
    rw [h.ac_eq]
    exact h.commit ((h.memRead _).bind fun _ _ hv =>
      hv ▸ (h.memWrite _ _).bind fun _ _ hw => (hw.aluToAc _ _).advance)

/-! ### The step and the run -/

theorem finish_agree {o p : Outcome} (h : Outcome.Agree o p) (i : Instr) :
    Outcome.Agree (finish i o) (finish i p) := by
  cases o with
  | next u =>
    cases p with
    | next v => exact State.Agree.retire h i
    | fault g | refused r => exact h
  | fault f | refused q => cases p <;> exact h

theorem issue_agree (h : s.Agree t) (d : Decoded) : Outcome.Agree (issue d s) (issue d t) := by
  cases d with
  | instr i => exact finish_agree (exec_agree h i) i
  | undef sub y =>
    rw [issue_undef, issue_undef, h.pc_eq, h.ir_eq]
    exact ⟨rfl, rfl, h⟩
  | illegal w =>
    rw [issue_illegal, issue_illegal, h.pc_eq]
    exact ⟨rfl, rfl, h⟩

theorem step_agree (h : s.Agree t) : Outcome.Agree (step s) (step t) := by
  by_cases hpc : InMemory t.pc
  · have hfetch := h.setIr (t.word t.pc)
    rw [step_inside (s := s) (h.pc_eq ▸ hpc), step_inside hpc, h.word_eq, h.pc_eq]
    split
    · exact ⟨rfl, rfl, hfetch⟩
    · exact issue_agree hfetch _
  · rw [step_outside (s := s) (h.pc_eq ▸ hpc), step_outside hpc, h.pc_eq]
    exact ⟨rfl, rfl, h⟩

/-- What two host calls answer agrees: the condition with what it records, and the states. -/
def CallsAgree (p q : State × Status) : Prop :=
  p.1.Agree q.1 ∧ p.2.code = q.2.code ∧ p.2.info = q.2.info

/-- Two loops under one guard make the same steps. -/
theorem runLoop_agree (h : s.Agree t) (m : Int) (n : Nat) : CallsAgree (s.runLoop m n) (t.runLoop m n) := by
  induction n generalizing s t with
  | zero => exact ⟨h, rfl, rfl⟩
  | succ n ih =>
    have hstep := step_agree h
    obtain ⟨u, hu, -⟩ | ⟨f, hf, -⟩ := s.stepCall_cases
    · obtain ⟨v, hv, -⟩ | ⟨g, hg, -⟩ := t.stepCall_cases
      · rw [hu, hv] at hstep
        rw [State.runLoop_next hu, State.runLoop_next hv]
        exact ih hstep
      · rw [hu, hg] at hstep
        exact hstep.elim
    · obtain ⟨v, hv, -⟩ | ⟨g, hg, -⟩ := t.stepCall_cases
      · rw [hf, hv] at hstep
        exact hstep.elim
      · rw [hf, hg] at hstep
        obtain ⟨hcode, hinfo, hafter⟩ := hstep
        rw [State.runLoop_fault hf, State.runLoop_fault hg]
        exact ⟨hafter, congrArg some hcode, hinfo⟩

/-- Settles O45: every operation of a step keeps agreement, and so does every round of a run. -/
theorem unspecifiedStateHasNoEffect : Obligations.UnspecifiedStateHasNoEffect := by
  unfold Obligations.UnspecifiedStateHasNoEffect
  intro s t h
  refine ⟨step_agree h, fun n => ?_⟩
  obtain ⟨hstate, hcode, hinfo⟩ := runLoop_agree h.startRun n n.toNat
  simp only [State.run_eq, Status.idle_code, Status.idle_info]
  exact ⟨hstate.idle, hcode, hinfo⟩

end Sys2Proof.Machine
end

section
/-! PROOFS. O51: a load as a series of stores inside memory. -/

namespace Sys2Proof.Machine

variable {s t u : State}

/-! ### Stores by the host -/

/-- `t` is `s` with words stored inside memory and nothing else changed: what a load or a poke does to the engine. -/
def State.HostStores (s t : State) : Prop :=
  t = { s with mem := t.mem } ∧ (s.mem.wf = true → t.mem.wf = true)

theorem State.HostStores.refl (s : State) : s.HostStores s := ⟨rfl, id⟩

theorem State.HostStores.trans (h : s.HostStores t) (h' : t.HostStores u) : s.HostStores u := by
  obtain ⟨hframe, hwf⟩ := h
  obtain ⟨hframe', hwf'⟩ := h'
  refine ⟨?_, hwf' ∘ hwf⟩
  rw [hframe', hframe]

theorem State.hostStores_setWord (s : State) {a : Int} (ha : InMemory a) (v : Int) :
    s.HostStores (s.setWord a v) :=
  ⟨rfl, fun hm => State.wf_setWord hm ha v⟩

theorem State.HostStores.pc_eq (h : s.HostStores t) : t.pc = s.pc := by
  obtain ⟨hframe, -⟩ := h
  rw [hframe]

theorem fitsAt_iff {base : Int} {n : Nat} : fitsAt base n = true ↔ 0 ≤ base ∧ base + n ≤ 4095 := by
  simp only [fitsAt, decide_eq_true_eq, inMemory_iff]
  omega

/-! ### The lines of a load (R262, R266) -/

theorem State.loadLines_ok {line : Text} {p : Parsed} (h : parse line = .ok p) (s : State) (a : Int)
    (rest : List Text) :
    s.loadLines a (line :: rest) = (s.setWord a (wordValue p.word)).loadLines (a + 1) rest := by
  rw [State.loadLines, h]

theorem State.loadLines_error {line : Text} {e : AsmError} (h : parse line = .error e) (s : State) (a : Int)
    (rest : List Text) : s.loadLines a (line :: rest) = (s, some (.codec e)) := by
  rw [State.loadLines, h]

/-- Lines that fit, with the sentinel after them, are stored inside memory, also where one of them fails. -/
theorem State.loadLines_hostStores (s : State) {a : Int} {lines : List Text} (ha : 0 ≤ a)
    (hfit : a + lines.length ≤ 4095) : s.HostStores (s.loadLines a lines).1 := by
  induction lines generalizing s a with
  | nil => exact s.hostStores_setWord (inMemory_iff.2 ⟨ha, by omega⟩) _
  | cons line rest ih =>
    rw [List.length_cons] at hfit
    push_cast at hfit
    cases hline : parse line with
    | ok p =>
      rw [State.loadLines_ok hline]
      have hin : InMemory a := inMemory_iff.2 ⟨ha, by omega⟩
      exact (s.hostStores_setWord hin _).trans (ih _ (by omega) (by omega))
    | error e =>
      rw [State.loadLines_error hline]
      exact .refl s

theorem State.loadProgram_inside {lines : List Text} {base : Int}
    (h : fitsAt base (codeLines lines).length = true) (s : State) :
    s.loadProgram lines base = s.idle.loadLines base (codeLines lines) := if_pos h

/-! ### Consecutive words -/

/-- The words `vs` stored at consecutive addresses from `a`. -/
def State.setWords (s : State) (a : Int) : List Int → State
  | [] => s
  | v :: vs => (s.setWord a v).setWords (a + 1) vs

/-- What lines that parse to `ps` are loaded as: their words, then the sentinel (R262). -/
def codeWords (ps : List Parsed) : List Int := ps.map (fun p => wordValue p.word) ++ [0]

theorem State.loadLines_eq_setWords {lines : List Text} {ps : List Parsed} (h : lines.map parse = ps.map .ok)
    (s : State) (a : Int) : s.loadLines a lines = (s.setWords a (codeWords ps), none) := by
  induction lines generalizing ps s a with
  | nil =>
    obtain rfl : ps = [] := by simpa using h.symm
    rfl
  | cons line rest ih =>
    cases ps with
    | nil => cases h
    | cons p ps =>
      obtain ⟨hline, hrest⟩ := List.cons.inj h
      rw [State.loadLines_ok hline]
      exact ih hrest _ _

theorem State.word_setWords_other {a b : Int} {vs : List Int} (ha : 0 ≤ a) (hb : 0 ≤ b)
    (h : b < a ∨ a + vs.length ≤ b) (s : State) : (s.setWords a vs).word b = s.word b := by
  induction vs generalizing s a with
  | nil => rfl
  | cons v vs ih =>
    rw [List.length_cons] at h
    push_cast at h
    rw [State.setWords, ih (by omega) (by omega), State.word_setWord_other ha hb (by omega)]

theorem State.word_setWords_at {a : Int} {vs : List Int} (hm : s.mem.wf = true) (ha : 0 ≤ a)
    (hfit : a + vs.length ≤ 4096) {j : Nat} (hj : j < vs.length) :
    (s.setWords a vs).word (a + j) = vs[j] := by
  induction vs generalizing s a j with
  | nil => cases hj
  | cons v vs ih =>
    rw [List.length_cons] at hfit
    push_cast at hfit
    cases j with
    | zero =>
      rw [State.setWords, Nat.cast_zero, add_zero, State.word_setWords_other (by omega) ha (by omega),
        State.word_setWord_same hm]
      rfl
    | succ j =>
      have hwf : (s.setWord a v).mem.wf = true := State.wf_setWord hm (inMemory_iff.2 ⟨ha, by omega⟩) v
      rw [Nat.cast_succ, add_comm (j : Int), ← add_assoc]
      exact ih hwf (by omega) (by omega) (Nat.lt_of_succ_lt_succ hj)

/-- Settles O51: a load that succeeds is one series of consecutive stores, of the lines' words and a zero. -/
theorem loadPlacesProgram : Obligations.LoadPlacesProgram := by
  unfold Obligations.LoadPlacesProgram
  intro s lines base ps hm hbase hfit hparse
  have hlen : (codeLines lines).length = ps.length := by simpa using congrArg List.length hparse
  have hwords : (codeWords ps).length = ps.length + 1 := by simp [codeWords]
  have hload := State.loadLines_eq_setWords hparse s.idle base
  have hstores := s.idle.loadLines_hostStores hbase (lines := codeLines lines) (by omega)
  have hat (j : Nat) (hj : j < (codeWords ps).length) :
      (s.idle.setWords base (codeWords ps)).word (base + j) = (codeWords ps)[j] :=
    State.word_setWords_at (s := s.idle) hm hbase (by omega) hj
  rw [hload] at hstores
  obtain ⟨hframe, -⟩ := hstores
  refine ⟨_, (State.loadProgram_inside (fitsAt_iff.2 ⟨hbase, by omega⟩) s).trans hload, fun j hj => ?_, ?_,
    fun b hb hout => State.word_setWords_other hbase hb.1 (by omega) _, hframe⟩
  · rw [hat j (by omega)]
    simp [codeWords, hj]
  · rw [hat ps.length (by omega)]
    simp [codeWords]

end Sys2Proof.Machine
end

section
/-! PROOFS. O54: the `.data` words, stored after the code. -/

namespace Sys2Proof.Machine

variable {s : State}

/-! ### The `.data` words (R264, R265) -/

theorem State.writeData_hostStores {data : List (Int × Int)} (h : ∀ d ∈ data, InMemory d.1) (s : State) :
    s.HostStores (s.writeData data) := by
  induction data generalizing s with
  | nil => exact .refl s
  | cons d data ih =>
    obtain ⟨hd, hrest⟩ := List.forall_mem_cons.1 h
    exact (s.hostStores_setWord hd _).trans (ih hrest _)

theorem State.word_writeData_other {data : List (Int × Int)} (h : ∀ d ∈ data, InMemory d.1) {b : Int}
    (hb : 0 ≤ b) (hnot : b ∉ data.map Prod.fst) (s : State) : (s.writeData data).word b = s.word b := by
  induction data generalizing s with
  | nil => rfl
  | cons d data ih =>
    obtain ⟨hd, hrest⟩ := List.forall_mem_cons.1 h
    obtain ⟨hne, hnot⟩ := not_or.1 (hnot ∘ List.mem_cons.2)
    rw [State.writeData, ih hrest hnot, State.word_setWord_other hd.1 hb hne]

theorem State.word_writeData {data : List (Int × Int)} (h : ∀ d ∈ data, InMemory d.1) (hkeys : KeysNodup data)
    (hm : s.mem.wf = true) {d : Int × Int} (hd : d ∈ data) : (s.writeData data).word d.1 = d.2 := by
  induction data generalizing s with
  | nil => cases hd
  | cons x data ih =>
    obtain ⟨hx, hrest⟩ := List.forall_mem_cons.1 h
    obtain ⟨hnot, hkeys⟩ := List.nodup_cons.1 hkeys
    rw [State.writeData]
    obtain rfl | hd := List.mem_cons.1 hd
    · rw [State.word_writeData_other hrest hx.1 hnot, State.word_setWord_same hm]
    · exact ih hrest hkeys (State.wf_setWord hm hx _) hd

/-! ### The controller's load (R264) -/

theorem Program.fits_iff {p : Program} :
    p.fits = true ↔
      fitsAt Params.loadBase (codeLines p.instructions).length = true ∧ ∀ d ∈ p.data, InMemory d.1 := by
  simp only [Program.fits, Bool.and_eq_true, List.all_eq_true, decide_eq_true_eq]

/-- The engine's part of the controller's load: the program's lines at address 0 of a reset engine. -/
def Controller.engineLoad (c : Controller) (p : Program) : State × Option LoadError :=
  c.engine.resetByHost.loadProgram p.instructions

theorem Controller.loadProgram_unfit {p : Program} (h : ¬ p.fits = true) (c : Controller) :
    c.loadProgram p =
      ({ c with engine := c.engine.resetByHost, programLines := p.instructions }, some .range) := if_neg h

theorem Controller.loadProgram_fit {p : Program} (h : p.fits = true) (c : Controller) :
    c.loadProgram p =
      match (c.engineLoad p).2 with
      | some e => ({ c with engine := (c.engineLoad p).1, programLines := p.instructions }, some e)
      | none =>
        ({ engine := (c.engineLoad p).1.writeData p.data, debugInfo := .initial, programLines := p.instructions },
          none) := by
  simp only [Controller.loadProgram, h, if_true, Controller.engineLoad]
  rcases c.engine.resetByHost.loadProgram p.instructions with ⟨s, _ | e⟩ <;> rfl

theorem Controller.engineLoad_hostStores {p : Program} (h : p.fits = true) (c : Controller) :
    c.engine.resetByHost.HostStores (c.engineLoad p).1 := by
  obtain ⟨hfit, -⟩ := Program.fits_iff.1 h
  obtain ⟨hbase, hlast⟩ := fitsAt_iff.1 hfit
  rw [Controller.engineLoad, State.loadProgram_inside hfit]
  exact State.loadLines_hostStores _ hbase hlast

/-- A load that succeeds fits, and writes the data over what the engine loaded. -/
theorem Controller.loadProgram_ok {c : Controller} {p : Program} (h : (c.loadProgram p).2 = none) :
    p.fits = true ∧ (c.loadProgram p).1.engine = (c.engineLoad p).1.writeData p.data ∧
      (c.loadProgram p).1.debugInfo = .initial := by
  by_cases hfits : p.fits = true
  · rw [Controller.loadProgram_fit hfits] at h ⊢
    split at h
    · cases h
    · exact ⟨hfits, rfl, rfl⟩
  · rw [Controller.loadProgram_unfit hfits] at h
    cases h

/-- Settles O54: the data are stored last, on the memory the code left, and no store of a load moves PC from its
reset value. -/
theorem dataIsWrittenLast : Obligations.DataIsWrittenLast := by
  unfold Obligations.DataIsWrittenLast
  intro c p hok hkeys
  obtain ⟨hfits, hengine, hdebug⟩ := Controller.loadProgram_ok hok
  obtain ⟨-, hdata⟩ := Program.fits_iff.1 hfits
  have hcode := Controller.engineLoad_hostStores hfits c
  have hpc := (hcode.trans (State.writeData_hostStores hdata _)).pc_eq
  obtain ⟨-, hwf⟩ := hcode
  rw [hengine]
  exact ⟨fun d hd => State.word_writeData hdata hkeys (hwf Memory.wf_reset) hd, hpc, hdebug⟩

end Sys2Proof.Machine
end

section
/-! PROOFS. O46: what stands between two host calls, through every host operation. -/

namespace Sys2Proof.Machine

variable {s t : State}

/-- What stands between two host calls: the invariant, on an engine that is Idle (R277). -/
def State.BetweenCalls (s : State) : Prop := s.Inv ∧ s.IsIdle

theorem State.betweenCalls_resetByHost (s : State) : s.resetByHost.BetweenCalls :=
  ⟨⟨Memory.wf_reset, rfl, rfl, rfl, rfl⟩, rfl, rfl⟩

/-- Stores write none of the records the invariant speaks of. -/
theorem State.HostStores.betweenCalls (h : s.HostStores t) (hs : s.BetweenCalls) : t.BetweenCalls := by
  obtain ⟨hframe, hmem⟩ := h
  obtain ⟨⟨hwf, hrecords⟩, hidle⟩ := hs
  refine ⟨⟨hmem hwf, ?_⟩, ?_⟩
  · rw [hframe]
    exact hrecords
  · rw [hframe]
    exact hidle

/-- Refused, ended by a line that fails, or done: a load is a reset and stores inside memory. -/
theorem Controller.loadProgram_hostStores (c : Controller) (p : Program) :
    c.engine.resetByHost.HostStores (c.loadProgram p).1.engine := by
  by_cases hfits : p.fits = true
  · have hcode := Controller.engineLoad_hostStores hfits c
    obtain ⟨-, hdata⟩ := Program.fits_iff.1 hfits
    rw [Controller.loadProgram_fit hfits]
    split
    · exact hcode
    · exact hcode.trans (State.writeData_hostStores hdata _)
  · rw [Controller.loadProgram_unfit hfits]
    exact .refl _

theorem State.Inv.stepCall (hs : s.Inv) : s.stepCall.1.Inv := by
  obtain ⟨hnext, hfault⟩ := stepKeepsInvariant s hs
  obtain ⟨t, ht, hcall⟩ | ⟨f, hf, hcall⟩ := s.stepCall_cases
  · rw [hcall]
    exact hnext t ht
  · rw [hcall]
    exact hfault f hf

/-- A step changes neither `running` nor the mode: only `run` sets them (R33, R34). -/
theorem State.IsIdle.stepCall (hs : s.IsIdle) : s.stepCall.1.IsIdle := by
  obtain ⟨hrunning, hmode⟩ := hs
  obtain ⟨t, ht, hcall⟩ | ⟨f, hf, hcall⟩ := s.stepCall_cases
  · obtain ⟨-, -, -, -, -, hrunning', hmode'⟩ := okStepIsRecorded s t ht
    rw [hcall]
    exact ⟨hrunning'.trans hrunning, hmode'.trans hmode⟩
  · have hfetched : f.after = _ := step_fault_onlyFetched hf
    rw [hcall, hfetched]
    exact ⟨hrunning, hmode⟩

theorem State.BetweenCalls.stepCall (hs : s.BetweenCalls) : s.stepCall.1.BetweenCalls := by
  obtain ⟨hinv, hidle⟩ := hs
  exact ⟨hinv.stepCall, hidle.stepCall⟩

theorem State.Inv.runLoop (hs : s.Inv) (m : Int) (n : Nat) : (s.runLoop m n).1.Inv := by
  induction n generalizing s with
  | zero => exact hs
  | succ n ih =>
    rw [State.runLoop_succ]
    split
    · exact ih hs.stepCall
    · exact hs.stepCall

/-- The invariant does not speak of Running, which a run sets and ends. -/
theorem State.BetweenCalls.run (hs : s.BetweenCalls) (n : Int) : (s.run n).1.BetweenCalls := by
  obtain ⟨hinv, -⟩ := hs
  have hstarted : s.startRun.Inv := hinv
  exact ⟨hstarted.runLoop n n.toNat, rfl, rfl⟩

theorem Controller.step_betweenCalls {c : Controller} (hc : c.engine.BetweenCalls) :
    c.step.1.engine.BetweenCalls :=
  hc.stepCall

theorem Controller.continueFor_betweenCalls {n : Nat} {c d : Controller} {st : Status}
    (h : c.continueFor n = some (d, st)) (hc : c.engine.BetweenCalls) : d.engine.BetweenCalls := by
  induction n generalizing c with
  | zero => cases h
  | succ n ih =>
    have hstep := Controller.step_betweenCalls hc
    obtain hlast | hrest := Controller.continueFor_succ h
    · rwa [hlast] at hstep
    · exact ih hrest hstep

/-- A host operation leaves the engine as it is, or does to it one of five things: a reset, a load, a poke, steps,
a run. -/
theorem hostAct_betweenCalls (op : HostOp) {c : Controller} (hc : c.engine.BetweenCalls) :
    (hostAct op c).1.engine.BetweenCalls := by
  cases op with
  | reset => exact c.engine.betweenCalls_resetByHost
  | loadProgram p => exact (c.loadProgram_hostStores p).betweenCalls c.engine.betweenCalls_resetByHost
  | step => exact hc.stepCall
  | debugStep => exact Controller.step_betweenCalls hc
  | run n => exact hc.run n
  | execute stepMode =>
    cases stepMode with
    | true => exact Controller.step_betweenCalls hc
    | false => exact hc.run Params.maxCyclesDefault
  | poke a v =>
    by_cases ha : InMemory a
    · simp only [hostAct, State.poke_inside ha]
      exact (c.engine.hostStores_setWord ha v).betweenCalls hc
    · simp only [hostAct, State.poke_outside ha]
      exact hc
  | debugContinue rounds =>
    cases hrounds : c.continueFor rounds with
    | some r =>
      simp only [hostAct, hrounds]
      exact Controller.continueFor_betweenCalls hrounds hc
    | none =>
      simp only [hostAct, hrounds]
      exact hc
  | getState | peek a | getMemoryDump start length | getStateReport | setBreakpoint line | removeBreakpoint line
  | toggleBreakpoint line => exact hc

/-- Settles O46: what stands between two calls is the invariant on an Idle engine. -/
theorem hostOperationsKeepInvariant : Obligations.HostOperationsKeepInvariant := by
  unfold Obligations.HostOperationsKeepInvariant
  exact fun op c hinv hidle => hostAct_betweenCalls op ⟨hinv, hidle⟩

end Sys2Proof.Machine
end

section
/-! PROOFS. O48 and O49: what a run's guard and its first fault count. -/

namespace Sys2Proof.Machine

variable {s t : State}

theorem State.OkSteps.cycleCount_eq {k : Nat} (h : s.OkSteps k t) : t.cycleCount = s.cycleCount + k := by
  induction k generalizing s with
  | zero =>
    obtain rfl : t = s := h
    simp
  | succ k ih =>
    obtain ⟨u, hu, hsteps⟩ := h
    rw [ih hsteps, step_next_cycleCount hu]
    push_cast
    ring

/-- A run under a guard of 0 or less makes no step (D23). -/
theorem State.run_of_nonpos {n : Int} (h : n ≤ 0) (s : State) : s.run n = (s.idle, .maxCyclesExceeded n) := by
  rw [State.run_eq, Int.toNat_of_nonpos h]
  rfl

/-- Settles O48: a loop that trips the guard made all its steps, each of which counts one. -/
theorem runGuard : Obligations.RunGuard := by
  unfold Obligations.RunGuard
  refine ⟨fun s n hn => State.run_of_nonpos hn s, fun s n h => ?_⟩
  obtain ⟨t, hsteps, hreached⟩ := State.okSteps_of_run h
  refine ⟨t, hsteps, hreached, ?_⟩
  rw [hreached, State.idle_cycleCount, hsteps.cycleCount_eq, State.startRun_cycleCount]

/-- A loop that ends in a fault or a halt made fewer `Ok` steps than its bound, and leaves what the next one left. -/
theorem State.okSteps_of_runLoop_stopped {m : Int} {n : Nat} {f : Fault} (h : (s.runLoop m n).2 = .stopped f) :
    ∃ k t, k < n ∧ s.OkSteps k t ∧ step t = .fault f ∧ (s.runLoop m n).1 = f.after := by
  induction n generalizing s with
  | zero => cases h
  | succ n ih =>
    obtain ⟨u, hu, -⟩ | ⟨g, hg, -⟩ := s.stepCall_cases
    · rw [State.runLoop_next hu] at h ⊢
      obtain ⟨k, t, hk, hsteps, hrest⟩ := ih h
      exact ⟨k + 1, t, Nat.succ_lt_succ hk, ⟨u, hu, hsteps⟩, hrest⟩
    · rw [State.runLoop_fault hg] at h ⊢
      cases h
      exact ⟨0, s, n.succ_pos, rfl, hg, rfl⟩

theorem Status.idle_eq_stopped_iff {st : Status} {f : Fault} :
    st.idle = .stopped f ↔ ∃ g, st = .stopped g ∧ g.idle = f := by
  cases st <;> simp [Status.idle]

/-- Settles O49: the loop stopped at its first fault, and the fault's own step counts nothing. -/
theorem runStopsAtFirstFault : Obligations.RunStopsAtFirstFault := by
  unfold Obligations.RunStopsAtFirstFault
  intro s n f h
  rw [State.run_eq] at h ⊢
  obtain ⟨g, hg, rfl⟩ := Status.idle_eq_stopped_iff.1 h
  obtain ⟨k, t, hk, hsteps, hstep, hafter⟩ := State.okSteps_of_runLoop_stopped hg
  refine ⟨k, t, g, by omega, hsteps, hstep, g.idle_code, g.idle_info, g.idle_after, congrArg State.idle hafter, ?_⟩
  rw [hafter, State.idle_cycleCount, (step_fault_onlyFetched hstep).cycleCount_eq, hsteps.cycleCount_eq,
    State.startRun_cycleCount]

end Sys2Proof.Machine
end

section
/-! PROOFS. O9 and O47: the reset state, and the host's reset. -/

namespace Sys2Proof.Machine

/-- Memory is 0 after reset (D12). -/
theorem State.word_reset (a : Int) : State.reset.word a = 0 := rfl

/-- Settles O9: memory is 0 after reset, so the first step fetches the sentinel. -/
theorem resetValues : Obligations.ResetValues := by
  unfold Obligations.ResetValues
  have hpc : InMemory State.reset.pc := by decide
  exact ⟨rfl, rfl, rfl, rfl, rfl, rfl, rfl, fun a _ => State.word_reset a, rfl, rfl, rfl, rfl, rfl, rfl, rfl, rfl,
    _, step_sentinel hpc (State.word_reset _), rfl⟩

/-- Settles O47: the reset reads nothing of the engine but its count of draws. -/
theorem hostResetIsUnconditional : Obligations.HostResetIsUnconditional := by
  unfold Obligations.HostResetIsUnconditional
  exact fun _ => ⟨rfl, rfl⟩

end Sys2Proof.Machine
end

section
/-! PROOFS. O6 and O8: the words and integers that are no instruction. -/

namespace Sys2Proof

/-- The unassigned sub-codes (R79, D4). -/
theorem extOfCode_none_iff (c : BitVec 4) :
    extOfCode c = none ↔ (6 ≤ c.toNat ∧ c.toNat ≤ 11) ∨ c.toNat = 13 ∨ c.toNat = 15 := by
  revert c; decide

theorem decodeWord_ne_illegal (w : InstrWord) (v : Int) : decodeWord w ≠ .illegal v := by
  obtain ⟨b, -, hb⟩ | ⟨-, e, -, he⟩ | ⟨-, -, hu⟩ := decodeWord_cases w
  · rw [hb]
    nofun
  · rw [he]
    nofun
  · rw [hu]
    nofun

/-- ILLEGAL is the answer to exactly the integers outside 16 bits, and carries them (R80, D10). -/
theorem decode_eq_illegal_iff {w v : Int} : decode w = .illegal v ↔ ¬ (0 ≤ w ∧ w ≤ 0xFFFF) ∧ w = v := by
  by_cases hw : 0 ≤ w ∧ w ≤ 0xFFFF
  · rw [decode_inside hw]
    exact ⟨fun h => absurd h (decodeWord_ne_illegal _ v), fun h => absurd hw h.1⟩
  · rw [decode_outside hw, Decoded.illegal.injEq, and_iff_right hw]

/-- A word whose value is 0xF above a sub-code and a byte has these fields (R72). -/
theorem extFields_of_wordValue {v : InstrWord} {sub : BitVec 4} {y : BitVec 8}
    (h : wordValue v = 0xF000 + sub.toNat * 256 + y.toNat) :
    opField v = extMark ∧ subField v = sub ∧ extField v = y := by
  have hhigh := wordValue_div_256 v
  have hlow := wordValue_mod_256 v
  have hsub := (subField v).isLt
  have hsub' := sub.isLt
  have hy := y.isLt
  simp only [← BitVec.toNat_inj, extMark_toNat]
  omega

theorem wordValue_of_extMark {v : InstrWord} (h : opField v = extMark) :
    wordValue v = 0xF000 + (subField v).toNat * 256 + (extField v).toNat := by
  rw [wordValue, toNat_eq_extFields, h, extMark_toNat]
  push_cast
  ring

/-- UNDEF is the answer to exactly the extended words of an unassigned sub-code, and carries their fields
(R79). -/
theorem decode_eq_undef_iff {w : Int} {sub : BitVec 4} {y : BitVec 8} :
    decode w = .undef sub y ↔ extOfCode sub = none ∧ w = 0xF000 + sub.toNat * 256 + y.toNat := by
  constructor
  · intro h
    by_cases hw : 0 ≤ w ∧ w ≤ 0xFFFF
    · obtain ⟨v, rfl⟩ := exists_wordValue_eq hw
      rw [decode_wordValue] at h
      obtain ⟨b, -, hb⟩ | ⟨-, e, -, he⟩ | ⟨hop, hnone, hu⟩ := decodeWord_cases v
      · cases hb.symm.trans h
      · cases he.symm.trans h
      · cases hu.symm.trans h
        exact ⟨hnone, wordValue_of_extMark hop⟩
    · rw [decode_outside hw] at h
      cases h
  · rintro ⟨hnone, rfl⟩
    have hsub := sub.isLt
    have hy := y.isLt
    obtain ⟨v, hv⟩ : ∃ v : InstrWord, wordValue v = 0xF000 + sub.toNat * 256 + y.toNat :=
      exists_wordValue_eq (by omega)
    obtain ⟨hop, rfl, rfl⟩ := extFields_of_wordValue hv
    rw [← hv, decode_wordValue]
    simp [decodeWord, hop, hnone]

/-- The ranges of the extended words that `extOfCode_none_iff` leaves unassigned. -/
theorem exists_undef_iff (w : Int) :
    (∃ sub y, decode w = .undef sub y) ↔
      (0xF600 ≤ w ∧ w ≤ 0xFBFF) ∨ (0xFD00 ≤ w ∧ w ≤ 0xFDFF) ∨ (0xFF00 ≤ w ∧ w ≤ 0xFFFF) := by
  simp only [decode_eq_undef_iff, extOfCode_none_iff]
  constructor
  · rintro ⟨sub, y, hcode, rfl⟩
    have hy : y.toNat < 256 := y.isLt
    omega
  · intro hw
    refine ⟨BitVec.ofInt 4 (w / 256), BitVec.ofInt 8 w, ?_⟩
    simp only [BitVec.toNat_ofInt]
    omega

/-- Settles O6: UNDEF and ILLEGAL by what each of them answers. -/
theorem unassignedWords : Obligations.UnassignedWords := by
  unfold Obligations.UnassignedWords
  refine ⟨exists_undef_iff, fun w sub y h => (decode_eq_undef_iff.1 h).2, fun w v => ?_⟩
  rw [decode_eq_illegal_iff]
  omega

/-- Settles O8, by evaluating the decoder on the eight words. -/
theorem sampleWordsDecode : Obligations.SampleWordsDecode := by
  unfold Obligations.SampleWordsDecode
  decide

end Sys2Proof
end

section
/-! PROOFS. O16, O19, O22 and O27: the local accesses and the pushes at the edge of memory, and the ALU trace. -/

namespace Sys2Proof.Machine

variable {s t : State}

/-- Settles O16: each makes one access, at SP + off, which the port refuses. -/
theorem localAccessOutsideMemory : Obligations.LocalAccessOutsideMemory := by
  unfold Obligations.LocalAccessOutsideMemory
  intro s off hout
  simp only [List.forall_mem_cons]
  exact ⟨State.aluFromMemory_outside hout .pass, State.storeAc_outside hout,
    State.aluFromMemory_outside hout .add, State.aluFromMemory_outside hout .sub, nofun⟩

/-- Settles O19: CALL is a push of PC + 1 and a jump. -/
theorem callPushesReturnAddress : Obligations.CallPushesReturnAddress := by
  unfold Obligations.CallPushesReturnAddress
  intro s a hm _ hpush
  exact ⟨_, exec_call_inside hpush a, rfl, State.storesOnly_of_setWord hm hpush rfl⟩

/-- Settles O22: the push fails, and PSHI's read, which comes before it, cannot. -/
theorem pushOutsideMemory : Obligations.PushOutsideMemory := by
  unfold Obligations.PushOutsideMemory
  intro s x hout
  exact ⟨exec_call_outside hout x, State.pushAndAdvance_outside hout x,
    fun hx => exec_pshi_outside (inMemory_directEa (by omega)) hout⟩

/-! ### The ALU trace (R123; log entry 6) -/

/-- The ALU traced operands `a` and `b` of an ADD or SUB, and the result that went to AC. -/
theorem State.aluFromMemory_aluTrace {op : AluOp} {ea : Int} (hop : op ≠ .pass)
    (h : s.aluFromMemory op ea = .next t) :
    t.aluTrace.inputA = s.ac ∧ t.aluTrace.inputB = s.word ea ∧ t.aluTrace.result = t.ac := by
  obtain ⟨-, rfl⟩ := State.aluFromMemory_next h
  cases op with
  | add | sub => exact ⟨rfl, rfl, rfl⟩
  | pass => exact absurd rfl hop

/-- PASS gives AC its operand, so a load's trace holds the new AC twice. -/
theorem State.aluFromMemory_pass_aluTrace {ea : Int} (h : s.aluFromMemory .pass ea = .next t) :
    t.aluTrace.inputB = t.ac ∧ t.aluTrace.result = t.ac := by
  obtain ⟨-, rfl⟩ := State.aluFromMemory_next h
  exact ⟨rfl, rfl⟩

/-- Settles O27: the ADD and SUB instructions, then those that PASS a word to AC. -/
theorem aluTraceOfAluInstructions : Obligations.AluTraceOfAluInstructions := by
  unfold Obligations.AluTraceOfAluInstructions
  intro s t x k
  refine ⟨State.aluFromMemory_aluTrace nofun, State.aluFromMemory_aluTrace nofun,
    State.aluFromMemory_aluTrace nofun, State.aluFromMemory_aluTrace nofun, ?_⟩
  simp only [List.forall_mem_cons]
  refine ⟨State.aluFromMemory_pass_aluTrace, State.aluFromMemory_pass_aluTrace, fun h => ?_, fun h => ?_,
    fun h => ?_, nofun⟩
  · cases h
    exact ⟨rfl, rfl⟩
  · obtain ⟨-, rfl⟩ := exec_pop_next h
    exact ⟨rfl, rfl⟩
  · obtain ⟨-, rfl⟩ := exec_swap_next h
    exact ⟨rfl, rfl⟩

end Sys2Proof.Machine
end

section
/-! PROOFS. O10, O31, O36, O37 and O40: the reset state, what an instruction and a step fault with, and what they
then leave. -/

namespace Sys2Proof.Machine

variable {s : State}

theorem mnemonic_of_pops {i : Instr} (h : pops i = true) :
    i.mnemonic ∈ [Mnemonic.ext .pop, .ext .popi, .ext .retn] := by
  cases i with
  | retn | pop | popi => simp [Instr.mnemonic]
  | lodd | stod | addd | subd | jpos | jzer | jump | loco | lodl | stol | addl | subl | jneg | jnze | call | pshi
  | push | swap | insp | desp => cases h

/-- A direct address that its field carries is inside memory, so an access outside is one through SP. -/
theorem mnemonic_of_access_outside {i : Instr} {x : Access} (hwf : i.wf = true) (hx : x ∈ accesses i s)
    (hout : ¬ InMemory x.addr) :
    i.mnemonic ∈ [Mnemonic.basic .lodl, .basic .stol, .basic .addl, .basic .subl, .basic .call, .ext .push,
      .ext .pshi, .ext .pop, .ext .popi, .ext .retn] := by
  cases i with
  | lodd a | stod a | addd a | subd a =>
    obtain rfl := List.mem_singleton.1 hx
    exact absurd (inMemory_directEa ((fitsBasic_iff a).1 hwf)) hout
  | swap a =>
    have ha : InMemory (directEa a) := inMemory_directEa_of_fitsExt hwf
    obtain rfl | rfl := List.mem_pair.1 hx <;> exact absurd ha hout
  | jump | jpos | jzer | jneg | jnze | loco | insp | desp => cases hx
  | lodl | stol | addl | subl | call | push | pshi | pop | popi | retn => simp [Instr.mnemonic]

/-- Settles O31: the two causes of a fault, and the instructions each of them belongs to. -/
theorem faultsOfInstructions : Obligations.FaultsOfInstructions := by
  unfold Obligations.FaultsOfInstructions
  intro i s f hwf h
  obtain ⟨hpop, hsp, rfl⟩ | ⟨-, x, hx, hout, rfl⟩ := (exec_fault_iff hwf).1 h
  · exact .inr ⟨rfl, hsp, mnemonic_of_pops hpop⟩
  · exact .inl ⟨x.addr, rfl, hout, ⟨x, hx, rfl⟩, mnemonic_of_access_outside hwf hx hout⟩

/-- Settles O36: the fetch's own check fails, before anything is written. -/
theorem fetchOutsideMemory : Obligations.FetchOutsideMemory := by
  unfold Obligations.FetchOutsideMemory
  intro s hpc
  exact step_outside (by rw [inMemory_iff]; omega)

/-- Settles O37: UNDEF and ILLEGAL are no instruction, and the fault leaves the fetched state. -/
theorem illegalWordsFault : Obligations.IllegalWordsFault := by
  unfold Obligations.IllegalWordsFault
  intro s hpc hdec
  have hnone : ∀ i, decode (s.word s.pc) ≠ .instr i := by
    obtain ⟨sub, y, hu⟩ | ⟨w, hw⟩ := hdec
    · rw [hu]
      nofun
    · rw [hw]
      nofun
  exact ⟨s.fetched, step_not_instr hpc hnone, rfl, State.onlyFetched_setIr _⟩

/-- Settles O40: a fault or halt leaves the state itself, from a PC outside memory, or the fetched state. -/
theorem faultsArePrecise : Obligations.FaultsArePrecise := by
  unfold Obligations.FaultsArePrecise
  intro s f h
  refine ⟨step_fault_onlyFetched h, ?_⟩
  obtain ⟨hpc, hafter⟩ | ⟨hpc, hafter⟩ := step_fault_after h
  · exact ⟨fun hin => absurd hin hpc, fun _ => hafter⟩
  · exact ⟨fun _ => by rw [hafter, State.setIr_ir], fun hout => absurd hpc hout⟩

/-- Settles O10, field by field: memory and history are empty, and the traces hold nothing. -/
theorem resetMeetsInvariant : Obligations.ResetMeetsInvariant := by
  unfold Obligations.ResetMeetsInvariant
  exact ⟨Memory.wf_reset, rfl, rfl, rfl, rfl⟩

end Sys2Proof.Machine
end

section
/-! PROOFS. O52 and O53: a load that a line ends early, and a load refused for its range. -/

namespace Sys2Proof.Machine

variable {s : State}

/-! ### A line that fails (R266, D24) -/

/-- Lines that parse are stored as their words, and the load goes on after them. -/
theorem State.loadLines_append {good : List Text} {ps : List Parsed} (h : good.map parse = ps.map .ok)
    (s : State) (a : Int) (rest : List Text) :
    s.loadLines a (good ++ rest) =
      (s.setWords a (ps.map fun p => wordValue p.word)).loadLines (a + ps.length) rest := by
  induction good generalizing ps s a with
  | nil =>
    obtain rfl : ps = [] := by simpa using h.symm
    simp [State.setWords]
  | cons line good ih =>
    cases ps with
    | nil => cases h
    | cons p ps =>
      obtain ⟨hline, hgood⟩ := List.cons.inj h
      have hnext : a + 1 + (ps.length : Int) = a + (ps.length + 1 : Nat) := by omega
      rw [List.cons_append, State.loadLines_ok hline, ih hgood, hnext]
      rfl

/-- Settles O52: the load is the words of the lines before the failing one, and nothing after them. -/
theorem failedLoadIsPartial : Obligations.FailedLoadIsPartial := by
  unfold Obligations.FailedLoadIsPartial
  intro s lines rest line base ps e good hm hbase hfit hcode hparse herror
  have hlen : good.length = ps.length := by simpa using congrArg List.length hparse
  have htotal : (codeLines lines).length = ps.length + (rest.length + 1) := by
    rw [hcode, List.length_append, List.length_cons, hlen]
  have hload : s.idle.loadLines base (codeLines lines) =
      (s.idle.setWords base (ps.map fun p => wordValue p.word), some (.codec e)) := by
    rw [hcode, State.loadLines_append hparse, State.loadLines_error herror]
  have hstores := s.idle.loadLines_hostStores hbase (lines := codeLines lines) (by omega)
  rw [hload] at hstores
  obtain ⟨hframe, -⟩ := hstores
  refine ⟨_, (State.loadProgram_inside (fitsAt_iff.2 ⟨hbase, by omega⟩) s).trans hload, fun j hj => ?_,
    fun b hb hout => State.word_setWords_other hbase hb.1 (by simpa using hout) _, hframe⟩
  rw [State.word_setWords_at (s := s.idle) hm hbase (by simp; omega) (by simpa using hj), List.getElem_map]

/-! ### The range check (R263, D22) -/

theorem State.loadProgram_outside {lines : List Text} {base : Int}
    (h : ¬ fitsAt base (codeLines lines).length = true) (s : State) :
    s.loadProgram lines base = (s, some .range) := if_neg h

/-- Once begun, a load ends only at its last line or at one that fails. -/
theorem State.loadLines_ne_range (s : State) (a : Int) (lines : List Text) :
    (s.loadLines a lines).2 ≠ some .range := by
  induction lines generalizing s a with
  | nil => exact nofun
  | cons line rest ih =>
    cases hline : parse line with
    | ok p =>
      rw [State.loadLines_ok hline]
      exact ih _ _
    | error e =>
      rw [State.loadLines_error hline]
      nofun

theorem State.loadProgram_range_iff {lines : List Text} {base : Int} :
    (s.loadProgram lines base).2 = some .range ↔ ¬ fitsAt base (codeLines lines).length = true := by
  by_cases h : fitsAt base (codeLines lines).length = true
  · rw [State.loadProgram_inside h]
    exact iff_of_false (State.loadLines_ne_range _ _ _) (not_not_intro h)
  · rw [State.loadProgram_outside h]
    exact iff_of_true rfl h

/-- A program that fits is loaded with the result of the engine's load. -/
theorem Controller.loadProgram_fit_error {p : Program} (h : p.fits = true) (c : Controller) :
    (c.loadProgram p).2 = (c.engineLoad p).2 := by
  rw [Controller.loadProgram_fit h]
  cases (c.engineLoad p).2 with
  | none => rfl
  | some e => rfl

theorem Controller.loadProgram_range_iff {c : Controller} {p : Program} :
    (c.loadProgram p).2 = some .range ↔ ¬ p.fits = true := by
  by_cases h : p.fits = true
  · obtain ⟨hcode, -⟩ := Program.fits_iff.1 h
    rw [Controller.loadProgram_fit_error h, Controller.engineLoad, State.loadProgram_range_iff]
    exact not_congr (iff_of_true hcode h)
  · rw [Controller.loadProgram_unfit h]
    exact iff_of_true rfl h

/-- R263's condition as it counts words, the sentinel among them. -/
theorem fitsAt_iff_words {base : Int} {n : Nat} : fitsAt base n = true ↔ 0 ≤ base ∧ base + n + 1 ≤ 4096 := by
  rw [fitsAt_iff]
  omega

theorem Program.fits_iff_words {p : Program} :
    p.fits = true ↔
      (codeLines p.instructions).length + 1 ≤ 4096 ∧ ∀ d ∈ p.data, 0 ≤ d.1 ∧ d.1 ≤ 4095 := by
  have hcode : fitsAt Params.loadBase (codeLines p.instructions).length = true ↔
      (codeLines p.instructions).length + 1 ≤ 4096 := by
    rw [fitsAt_iff_words, Params.loadBase]
    omega
  simp only [Program.fits_iff, hcode, inMemory_iff]

/-- Settles O53: each load is refused for its range exactly where its own check fails, before any store. -/
theorem loadRangeIsChecked : Obligations.LoadRangeIsChecked := by
  unfold Obligations.LoadRangeIsChecked
  refine ⟨fun c p => ?_, fun s lines base => ?_⟩
  · simp only [← Program.fits_iff_words]
    refine ⟨fun hunfit => ?_, fun hfits hrange => Controller.loadProgram_range_iff.1 hrange hfits⟩
    rw [Controller.loadProgram_unfit hunfit]
    exact ⟨rfl, rfl, rfl⟩
  · simp only [← fitsAt_iff_words]
    exact ⟨fun hunfit => State.loadProgram_outside hunfit s,
      fun hfits hrange => State.loadProgram_range_iff.1 hrange hfits⟩

end Sys2Proof.Machine
end
